-- ==== Sys2Proof/Word.lean ====
section
/-! DEFINITION. The words of the block: an 8-bit byte and a 16-bit word (R11 of spec/00_scope.md). -/

namespace Sys2Proof

/-- A byte of a frame or a buffer (R11). -/
abbrev Byte := BitVec 8

/-- A word: a 16-bit field of a frame, or one element of `HR` or `IR` (R11, R50). -/
abbrev Word := BitVec 16

end Sys2Proof
end

