-- ==== Sys2Proof/Config.lean ====
section
/-! DEFINITION. The Register Store as data, and the configuration of R9 (spec/00_scope.md) that the block takes as arguments. -/

namespace Sys2Proof

/-- The four Register Store spaces (R50). -/
inductive Space where
  | coil
  | di
  | hr
  | ir
deriving DecidableEq, Repr

/-- One element of a space with its value: 1 bit in `COIL` and `DI`, 16 bits in `HR` and `IR` (R50, R52).
A value of the wrong width for its space cannot be written down. -/
inductive Item where
  | coil (v : Bool)
  | di   (v : Bool)
  | hr   (v : Word)
  | ir   (v : Word)
deriving DecidableEq, Repr

/-- The space an item belongs to. -/
def Item.space : Item → Space
  | .coil _ => .coil
  | .di _ => .di
  | .hr _ => .hr
  | .ir _ => .ir

/-- One space's contents: the listed elements (index, value), indices strictly rising, no value equal to what an
unlisted element reads as. DESIGN CHOICE (log 12): the cell is one element, the spec's addressable unit (R51). -/
abbrev Cells (α : Type) := List (Nat × α)

/-- The Register Store: four disjoint spaces (R50). -/
structure Store where
  coil : Cells Bool
  di   : Cells Bool
  hr   : Cells Word
  ir   : Cells Word
deriving DecidableEq, Repr

/-- What an unlisted element of `COIL` or `DI` reads as. DESIGN CHOICE (log 12): the all-zero contents of R72's reference build. -/
abbrev unlistedBit : Bool := false

/-- What an unlisted element of `HR` or `IR` reads as (log 12). -/
abbrev unlistedWord : Word := 0

/-- The all-zero store: nothing listed (R72's reference default). -/
def Store.zero : Store := { coil := [], di := [], hr := [], ir := [] }

/-- The configuration, one field per parameter of R9 that is not a constant. -/
structure Config where
  localAddr : Byte
  charTicks : Nat
  t15Ticks  : Nat
  t35Ticks  : Nat
  rxCap     : Nat
  txCap     : Nat
  nCoils    : Nat
  nDi       : Nat
  nHr       : Nat
  nIr       : Nat
  storeInit : Store
  hasDiag   : Bool
deriving DecidableEq, Repr

/-- `capacity(S)` (R15, R50). -/
def Config.capacity (c : Config) : Space → Nat
  | .coil => c.nCoils
  | .di => c.nDi
  | .hr => c.nHr
  | .ir => c.nIr

/-- `MAX_RD_BITS` (R9). -/
abbrev maxRdBits : Nat := 2000
/-- `MAX_RD_REGS` (R9). -/
abbrev maxRdRegs : Nat := 125
/-- `MAX_WR_COILS` (R9; the public Modbus limit, decision D13, log 13). -/
abbrev maxWrCoils : Nat := 1968
/-- `MAX_WR_REGS` (R9; decision D13, log 13). -/
abbrev maxWrRegs : Nat := 123

end Sys2Proof
end

