-- ==== Sys2Proof/Machine/Defaults.lean ====
section
/-! DEFINITION. The defaults of R9, the thresholds as R121 computes them from CHAR_TICKS, and the configuration `State.reset` takes. -/

namespace Sys2Proof

/-- `T15_TICKS` by default: `ceil(3 x CHAR_TICKS / 2)` (R121). -/
def defaultT15 (charTicks : Nat) : Nat := (3 * charTicks + 1) / 2

/-- `T35_TICKS` by default: `ceil(7 x CHAR_TICKS / 2)` (R121). -/
def defaultT35 (charTicks : Nat) : Nat := (7 * charTicks + 1) / 2

/-- R9's defaults, the OPEN parameters being arguments. A platform may fix other values; `legalConfig` says which are
allowed (R121, R254). -/
def Config.ofDefaults (localAddr : Byte) (charTicks : Nat) (storeInit : Store) (hasDiag : Bool) : Config where
  localAddr := localAddr
  charTicks := charTicks
  t15Ticks := defaultT15 charTicks
  t35Ticks := defaultT35 charTicks
  rxCap := 256
  txCap := 256
  nCoils := 128
  nDi := 128
  nHr := 128
  nIr := 128
  storeInit := storeInit
  hasDiag := hasDiag

/-- The configuration `State.reset` takes: R9's defaults, and for its OPEN parameters the values of the spec's own
test vectors (95_test_vectors.md section 0) with R72's all-zero store. DESIGN CHOICE (log 2). -/
def Config.reference : Config := Config.ofDefaults 0x11 10 Store.zero true

end Sys2Proof
end

