-- ==== Sys2Proof/Syntax.lean ====
section
/-! DEFINITION. The instructions: one constructor per row of spec/opcode_table.json, nine function codes (R93) and eight events (R100). -/

namespace Sys2Proof

/-- What the block can be given to execute (R16). The first nine are the requests DISPATCH runs on a validated frame,
with the operands R84 assembles from it; the last eight are the input events. -/
inductive Instr where
  /-- RDCOIL, 0x01 Read Coils (R193). -/
  | rdcoil (start qty : Word)
  /-- RDDI, 0x02 Read Discrete Inputs (R194). -/
  | rddi (start qty : Word)
  /-- RDHR, 0x03 Read Holding Registers (R195). -/
  | rdhr (start qty : Word)
  /-- RDIR, 0x04 Read Input Registers (R196). -/
  | rdir (start qty : Word)
  /-- WRCOIL, 0x05 Write Single Coil (R197). -/
  | wrcoil (a v : Word)
  /-- WRHR, 0x06 Write Single Register (R198). -/
  | wrhr (a v : Word)
  /-- WRCOILS, 0x0F Write Multiple Coils (R199): `bc` is the declared byte count, `data` the data bytes the frame
  carries of those declared (fewer than `bc` in a short frame, R88). -/
  | wrcoils (start qty : Word) (bc : Byte) (data : List Byte)
  /-- WRHRS, 0x10 Write Multiple Registers (R200); `bc` and `data` as for `wrcoils`. -/
  | wrhrs (start qty : Word) (bc : Byte) (data : List Byte)
  /-- ILLFN, any other function code (R201). -/
  | illfn (fc : Byte)
  /-- RX_BYTE, a byte received (R141). -/
  | rxByte (b : Byte)
  /-- TX_DONE, the byte in flight is sent (R149). -/
  | txDone
  /-- TICK, one timer clock (R129). -/
  | tick
  /-- DISPATCH, the foreground's first step (R171). -/
  | dispatch
  /-- EMIT, the foreground's second step (R181). -/
  | emit
  /-- HOST_READ (R71). -/
  | hostRead (sp : Space) (a : Word)
  /-- HOST_WRITE (R70): the item carries the space and a value of its width. -/
  | hostWrite (a : Word) (v : Item)
  /-- RESET (R250). -/
  | reset
deriving DecidableEq, Repr

end Sys2Proof
end

