-- ==== Sys2Proof/Machine/State.lean ====
section
/-! DEFINITION. The state of the block: the whole of R22's table (spec/10_state.md), the configuration (R9), the events still to
come and the outputs so far; the reasons a step can stop; and the state right after RESET (R250). -/

namespace Sys2Proof.Machine

/-- An input event (R100): what an agent outside the block issues. -/
inductive Event where
  | rxByte (b : Byte)
  | txDone
  | tick
  | dispatch
  | emit
  | hostRead (sp : Space) (a : Word)
  | hostWrite (a : Word) (v : Item)
  | reset
deriving DecidableEq, Repr

/-- An output (R100), produced inside a step. -/
inductive Output where
  /-- `TX_OUT(b)`: one byte handed to the UART (R148, R149). -/
  | txOut (b : Byte)
  /-- `DIAG(f, n)`: the frame and, as its length, `n` (R173). -/
  | diag (f : List Byte)
  /-- The value of a `HOST_READ` (R71). -/
  | hostValue (v : Item)
deriving DecidableEq, Repr

/-- The frame assembler's receive state (R26). -/
inductive FaState where
  | idle
  | accumulating
deriving DecidableEq, Repr

/-- The transmit gate (R30). -/
inductive TxState where
  | txIdle
  | txPending
  | txActive
deriving DecidableEq, Repr

/-- The dispatcher's phase (R32). -/
inductive DispPhase where
  | ready
  | holding
deriving DecidableEq, Repr

/-- Stops of the model that are the spec's disabled events: "An event whose enabling condition does not hold has no
step" (R100); safe, because the block takes no step there either (log 7). -/
inductive Fault where
  /-- TX_DONE with `tx_inflight = 0` (R149, I13). Raised by `execTxDone`. Safe. -/
  | txDoneNothingInFlight
  /-- DISPATCH, or a request handed to the dispatcher, while `disp_phase = Holding` (R171). Raised by `execDispatch`
  and by the nine request meanings. Safe. -/
  | dispatchWhileHolding
  /-- EMIT while `disp_phase = Ready` (R181). Raised by `execEmit`. Safe. -/
  | emitWhileReady
  /-- An event other than RESET before the first RESET: "An event before `RESET` has no step" (R254, I13; log 15).
  Raised by `takeEvent`, which `step` calls. Safe. -/
  | eventBeforeReset
deriving DecidableEq, Repr

/-- Stops that the spec calls a refusal, and the arm of an instruction that has no meaning yet. -/
inductive Refusal where
  /-- An instruction this model has no meaning for. Raised by no arm now. Safe. -/
  | notModelled (mnemonic : String)
  /-- HOST_READ or HOST_WRITE outside the space: "the model refuses a host write outside the space" (R70, R71).
  Raised by `execHostRead` and `execHostWrite`. Safe. -/
  | hostIndexOutOfSpace
  /-- A configuration that breaks a range of R9: "refused: the model has no step from RESET under it" (R9, I11).
  Raised by `execReset` and `step`. Safe. -/
  | illegalConfiguration
  /-- The dispatcher was given an event to run as a request. Raised by `runRequest`; no frame decodes to an event, so
  no step reaches it. Safe. -/
  | notARequest
deriving DecidableEq, Repr

/-- R22's state vector, then the model's own fields. -/
structure State where
  /-- `tim_count` (R23). -/
  timCount   : Nat
  /-- `tim_run` (R34). -/
  timRun     : Bool
  /-- `mid_fired` (R24). -/
  midFired   : Bool
  /-- `end_fired` (R25). -/
  endFired   : Bool
  /-- `fa_state` (R26). -/
  faState    : FaState
  /-- `rx_buf`, RX_CAP bytes (R27). -/
  rxBuf      : List Byte
  /-- `rx_len` (R27). -/
  rxLen      : Nat
  /-- `mb_buf`, RX_CAP bytes (R28). -/
  mbBuf      : List Byte
  /-- `mb_len` (R28). -/
  mbLen      : Nat
  /-- `tx_buf`, TX_CAP bytes (R29). -/
  txBuf      : List Byte
  /-- `tx_len` (R29). -/
  txLen      : Nat
  /-- `tx_cur` (R29). -/
  txCur      : Nat
  /-- `tx_state` (R30). -/
  txState    : TxState
  /-- `tx_inflight` (R31). -/
  txInflight : Bool
  /-- `disp_phase` (R32). -/
  dispPhase  : DispPhase
  /-- `disp_out`, TX_CAP bytes (R32). -/
  dispOut    : List Byte
  /-- `disp_out_len` (R32). -/
  dispOutLen : Nat
  /-- `COIL`, `DI`, `HR`, `IR` (R22, R50). -/
  store      : Store
  /-- The configuration in force, sampled at the last RESET (R9, R252; log 1). No event but RESET changes it. -/
  cfg        : Config
  /-- The configuration inputs as the platform presents them (R33, R254): what the next RESET samples. No event
  changes them (log 1). -/
  cfgPins    : Config
  /-- Whether a RESET has been taken: before the first one no other event has a step (R254; log 15). -/
  hasReset   : Bool
  /-- The model's own: the events still to come, next one first (log 3). -/
  input      : List Event
  /-- The model's own: the outputs emitted so far, oldest first (log 5). -/
  outputs    : List Output
deriving DecidableEq, Repr

/-- The state RESET leaves under configuration `c` (R22, R250), with no event to come and no output. The contents of
the four buffers are unspecified there; zeros, DESIGN CHOICE (log 6). -/
def State.afterReset (c : Config) : State where
  timCount := 0
  timRun := true
  midFired := false
  endFired := false
  faState := .idle
  rxBuf := List.replicate c.rxCap 0
  rxLen := 0
  mbBuf := List.replicate c.rxCap 0
  mbLen := 0
  txBuf := List.replicate c.txCap 0
  txLen := 0
  txCur := 0
  txState := .txIdle
  txInflight := false
  dispPhase := .ready
  dispOut := List.replicate c.txCap 0
  dispOutLen := 0
  store := c.storeInit
  cfg := c
  cfgPins := c
  hasReset := true
  input := []
  outputs := []

/-- The block before its first RESET, configured by the platform (R254 steps 1 to 4). No rule gives its elements values and
RESET overwrites them all; they are RESET's own here, DESIGN CHOICE (log 15). -/
def State.beforeReset (c : Config) : State := { State.afterReset c with hasReset := false }

/-- The machine right after the first RESET (R250, R254) of the reference configuration (log 2, log 15). -/
def State.reset : State := State.afterReset Config.reference

end Sys2Proof.Machine
end

