-- ==== Sys2Proof/Machine/Flags.lean ====
section
/-! DEFINITION. The flags of the block and every way one changes (R34 of spec/10_state.md; spec/41_silence_timer.md). -/

namespace Sys2Proof.Machine

/-- `RestartTimer()`, on every byte event (R122). -/
def restartTimer (s : State) : State :=
  { s with timCount := 0, timRun := true, midFired := false, endFired := false }

/-- The count after one tick of a running timer (R123). -/
def countTick (s : State) : State := { s with timCount := s.timCount + 1 }

/-- The mid-timeout (R124). -/
def fireMid (s : State) : State := { s with midFired := true }

/-- The end-timeout's own flags, and the auto-halt (R125 items 1 and 2). -/
def fireEnd (s : State) : State := { s with endFired := true, timRun := false }

end Sys2Proof.Machine
end

