-- ==== Sys2Proof/WellFormed.lean ====
section
/-! DEFINITION. The well-formed instructions: the terms some frame or event of the spec stands for. -/

namespace Sys2Proof

/-- The eight implemented function codes (R2, R93). -/
def knownCodes : List Byte := [0x01, 0x02, 0x03, 0x04, 0x05, 0x06, 0x0F, 0x10]

/-- A request with a byte count carries at most that many data bytes (the rest of the frame is ignored, R88), and
ILLFN stands only for a code outside R93's eight (R94). Every other term is well formed. -/
def Instr.wellFormed : Instr → Bool
  | .rdcoil _ _ => true
  | .rddi _ _ => true
  | .rdhr _ _ => true
  | .rdir _ _ => true
  | .wrcoil _ _ => true
  | .wrhr _ _ => true
  | .wrcoils _ _ bc data => data.length ≤ bc.toNat
  | .wrhrs _ _ bc data => data.length ≤ bc.toNat
  | .illfn fc => fc ∉ knownCodes
  | .rxByte _ => true
  | .txDone => true
  | .tick => true
  | .dispatch => true
  | .emit => true
  | .hostRead _ _ => true
  | .hostWrite _ _ => true
  | .reset => true

end Sys2Proof
end

