-- ==== Sys2Proof/Decode.lean ====
section
/-! DEFINITION. The decoder of requests, from the bytes of a PDU (R83: function code, then data) to an instruction, total and
rejecting by name; the encoder from the same formats (R85 to R87, R93); and the reading of a word of spec/opcode_table.json.
Events have no bits in the table (R100): they reach the machine as data (log 11). -/

namespace Sys2Proof

/-- `be16(h, l) = (h << 8) | l`: high byte first (R11, R56). -/
def be16 (h l : Byte) : Word := (h.setWidth 16 <<< 8) ||| l.setWidth 16

/-- Bits 15..8 of a word. -/
def hiByte (w : Word) : Byte := (w >>> 8).setWidth 8

/-- Bits 7..0 of a word. -/
def loByte (w : Word) : Byte := w.setWidth 8

/-- Why a PDU is no request. -/
inductive Rejection where
  /-- There is no function-code byte. -/
  | noFunctionCode
  /-- The request is shorter than its format's fixed fields (R88, R98). -/
  | missingFields (fc : Byte)
deriving DecidableEq, Repr

/-- What a PDU decodes to. -/
inductive Decoded where
  | request (i : Instr)
  | rejected (why : Rejection)
deriving DecidableEq, Repr

/-- Formats Q-RANGE and Q-SINGLE (R85, R86): two 16-bit fields; bytes after them are ignored (R88). -/
def decodePair (mk : Word → Word → Instr) (fc : Byte) : List Byte → Decoded
  | ah :: al :: vh :: vl :: _ => .request (mk (be16 ah al) (be16 vh vl))
  | _ => .rejected (.missingFields fc)

/-- Format Q-MULTI (R87): two 16-bit fields, the byte count, and up to that many data bytes; bytes after them are
ignored, and fewer data bytes than declared are kept as they are (R88). -/
def decodeMulti (mk : Word → Word → Byte → List Byte → Instr) (fc : Byte) : List Byte → Decoded
  | ah :: al :: vh :: vl :: bc :: rest => .request (mk (be16 ah al) (be16 vh vl) bc (rest.take bc.toNat))
  | _ => .rejected (.missingFields fc)

/-- The function-code map (R93, R94): the code is matched as a full 8-bit value. -/
def decode : List Byte → Decoded
  | [] => .rejected .noFunctionCode
  | fc :: d =>
    if fc = 0x01 then decodePair .rdcoil fc d
    else if fc = 0x02 then decodePair .rddi fc d
    else if fc = 0x03 then decodePair .rdhr fc d
    else if fc = 0x04 then decodePair .rdir fc d
    else if fc = 0x05 then decodePair .wrcoil fc d
    else if fc = 0x06 then decodePair .wrhr fc d
    else if fc = 0x0F then decodeMulti .wrcoils fc d
    else if fc = 0x10 then decodeMulti .wrhrs fc d
    else .request (.illfn fc)

/-- The bytes of a pair of 16-bit fields after a function code (R84). -/
def encodePair (fc : Byte) (a v : Word) : List Byte := [fc, hiByte a, loByte a, hiByte v, loByte v]

/-- The PDU of a request (R85 to R87, R93); an event has no bytes (R100). -/
def encode : Instr → Option (List Byte)
  | .rdcoil start qty => some (encodePair 0x01 start qty)
  | .rddi start qty => some (encodePair 0x02 start qty)
  | .rdhr start qty => some (encodePair 0x03 start qty)
  | .rdir start qty => some (encodePair 0x04 start qty)
  | .wrcoil a v => some (encodePair 0x05 a v)
  | .wrhr a v => some (encodePair 0x06 a v)
  | .wrcoils start qty bc data => some (encodePair 0x0F start qty ++ bc :: data)
  | .wrhrs start qty bc data => some (encodePair 0x10 start qty ++ bc :: data)
  | .illfn fc => some [fc]
  | .rxByte _ => none
  | .txDone => none
  | .tick => none
  | .dispatch => none
  | .emit => none
  | .hostRead _ _ => none
  | .hostWrite _ _ => none
  | .reset => none

/-- The function code of a request (R93); none for an event. -/
def Instr.functionCode (i : Instr) : Option Byte := (encode i).bind List.head?

/-- The fixed fields a request of this code needs after the function-code byte: 4 bytes, 5 with a byte count, none
for an illegal code (R88, R98). -/
def fixedFields (fc : Byte) : Nat :=
  if fc = 0x0F ∨ fc = 0x10 then 5 else if fc ∈ knownCodes then 4 else 0

/-- The PDU of a table word: the table numbers bits from the function-code byte (its rows are 8 bits, matched on ADU
byte 1), so byte `k` of the PDU is bits `8k+7..8k`; the bytes above are zeros, six bytes at least, which covers
every format's fixed fields (R98; log 10). -/
def tablePdu (nbits w : Nat) : List Byte :=
  (List.range (max ((nbits + 7) / 8) 6)).map fun k => BitVec.ofNat 8 (w >>> (8 * k))

/-- The instruction the decoder reads from a table word. -/
def decodeTableWord (nbits w : Nat) : Option Instr :=
  match decode (tablePdu nbits w) with
  | .request i => some i
  | .rejected _ => none

end Sys2Proof
end

