-- ==== Sys2Proof/Machine/Operands.lean ====
section
/-! DEFINITION. Operand forms: the length and range arithmetic, bit packing, and the fields of requests and responses
(spec/20_memory.md, spec/30_encoding.md). -/

namespace Sys2Proof.Machine

/-- `ceil8(q)` (R11). -/
def ceil8 (q : Nat) : Nat := (q + 7) / 8

/-- `RangeOK` against a capacity, exact (R55, R202). -/
def rangeOk (cap : Nat) (start count : Word) : Bool := start.toNat + count.toNat ≤ cap

/-- Up to eight points as a byte, the first in bit 0 (R58). -/
def packByte : List Bool → Byte
  | [] => 0
  | b :: bs => (packByte bs <<< 1) ||| (BitVec.ofBool b).setWidth 8

/-- Points packed LSB-first, eight a byte, the padding bits of the last byte 0 (R58, R89). -/
def packBits (bits : List Bool) : List Byte :=
  (List.range (ceil8 bits.length)).map fun k => packByte ((bits.drop (8 * k)).take 8)

/-- Point `i` of packed data: bit `i mod 8` of byte `i div 8` (R58). -/
def packedBit (data : List Byte) (i : Nat) : Bool := (data.getD (i / 8) 0).getLsbD (i % 8)

/-- The first `qty` points of packed data (R199). -/
def unpackBits (data : List Byte) (qty : Nat) : List Bool := (List.range qty).map (packedBit data)

/-- Registers as bytes, big-endian, in order (R56, R90). -/
def regBytes : List Word → List Byte
  | [] => []
  | w :: ws => hiByte w :: loByte w :: regBytes ws

/-- Data word `i` of a 0x10 request: `be16(f, 7 + 2i)` (R84). -/
def dataWord (data : List Byte) (i : Nat) : Word := be16 (data.getD (2 * i) 0) (data.getD (2 * i + 1) 0)

/-- The first `qty` data words (R200). -/
def dataWords (data : List Byte) (qty : Nat) : List Word := (List.range qty).map (dataWord data)

/-- The four bytes A-ECHO copies from the request (R91). -/
def echoFields (a v : Word) : List Byte := [hiByte a, loByte a, hiByte v, loByte v]

/-- The coil value 'on' of 0x05 (R96). -/
def coilOn : Word := 0xFF00

/-- The coil value 'off' of 0x05 (R96). -/
def coilOff : Word := 0x0000

/-- The Modbus exception codes (R95). -/
inductive ExceptionCode where
  | illegalFunction
  | illegalDataAddress
  | illegalDataValue
deriving DecidableEq, Repr

/-- The code on the wire (R95). -/
def ExceptionCode.byte : ExceptionCode → Byte
  | .illegalFunction => 0x01
  | .illegalDataAddress => 0x02
  | .illegalDataValue => 0x03

/-- A handler's answer (R178). The outcome `Drop` is decided before the handler runs: a request short of fields does
not decode (R88, R190 step 1). -/
inductive Reply where
  | success (payload : List Byte)
  | exception (code : ExceptionCode)
deriving DecidableEq, Repr

/-- The success response, CRC over every byte before it (R179, R57; conflict C9). -/
def responseFrame (addr fc : Byte) (payload : List Byte) : List Byte := withCrc (addr :: fc :: payload)

/-- The exception response A-EXC (R92, R180). -/
def exceptionFrame (addr fc : Byte) (code : ExceptionCode) : List Byte := withCrc [addr, fc ||| 0x80, code.byte]

/-- The request frame (ADU) of a PDU (R80). -/
def requestFrame (addr : Byte) (pdu : List Byte) : List Byte := withCrc (addr :: pdu)

/-- The PDU of a frame: bytes `1 .. n-3` (R83). -/
def framePdu (f : List Byte) : List Byte := (f.take (f.length - 2)).drop 1

end Sys2Proof.Machine
end

