-- ==== Sys2Proof/Machine/Ops.lean ====
section
/-! DEFINITION. The named operations over the Register Store, the buffers and the dispatcher's output, the building of a success
and of an exception response (R179, R180), and the legal configurations (R9). -/

namespace Sys2Proof.Machine

/-! ### The Register Store (spec/20_memory.md) -/

/-- The value of element `a` of a space; an element not listed reads as `d`. -/
def cellRead {α : Type} (d : α) : Cells α → Nat → α
  | [], _ => d
  | (b, v) :: rest, a => if a = b then v else cellRead d rest a

/-- Element `a` of a space set to `v`, the canonical form kept: a value equal to `d` is not listed. -/
def cellWrite {α : Type} [DecidableEq α] (d : α) : Cells α → Nat → α → Cells α
  | [], a, v => if v = d then [] else [(a, v)]
  | (b, w) :: rest, a, v =>
    if a < b then (if v = d then (b, w) :: rest else (a, v) :: (b, w) :: rest)
    else if a = b then (if v = d then rest else (a, v) :: rest)
    else (b, w) :: cellWrite d rest a v

/-- The canonical form of one space of capacity `cap`: indices strictly rising and inside the space (R63), no value
equal to what an unlisted element reads as. -/
abbrev cellsWf {α : Type} [DecidableEq α] (d : α) (cap : Nat) (m : Cells α) : Prop :=
  m.Pairwise (fun x y => x.1 < y.1) ∧ ∀ x ∈ m, x.1 < cap ∧ x.2 ≠ d

/-- The canonical form of the whole Register Store under a configuration. -/
abbrev Memory.wf (c : Config) (m : Store) : Prop :=
  cellsWf unlistedBit c.nCoils m.coil ∧ cellsWf unlistedBit c.nDi m.di ∧
    cellsWf unlistedWord c.nHr m.hr ∧ cellsWf unlistedWord c.nIr m.ir

/-- `MemRead(S, a)` (R52). -/
def memRead (m : Store) : Space → Nat → Item
  | .coil, a => .coil (cellRead unlistedBit m.coil a)
  | .di, a => .di (cellRead unlistedBit m.di a)
  | .hr, a => .hr (cellRead unlistedWord m.hr a)
  | .ir, a => .ir (cellRead unlistedWord m.ir a)

/-- `MemWrite(S, a, v)`, the space being the item's (R53). -/
def memWrite (m : Store) (a : Nat) : Item → Store
  | .coil v => { m with coil := cellWrite unlistedBit m.coil a v }
  | .di v => { m with di := cellWrite unlistedBit m.di a v }
  | .hr v => { m with hr := cellWrite unlistedWord m.hr a v }
  | .ir v => { m with ir := cellWrite unlistedWord m.ir a v }

/-- Elements `a, a+1, …` written in order (R199, R200). -/
def memWriteRun (m : Store) (a : Nat) : List Item → Store
  | [] => m
  | v :: vs => memWriteRun (memWrite m a v) (a + 1) vs

/-- `n` elements of one space from `start` on (R191, R192). -/
def readRun {α : Type} (d : α) (cells : Cells α) (start n : Nat) : List α :=
  (List.range n).map fun i => cellRead d cells (start + i)

/-! ### Buffers (R27 to R32) -/

/-- `buf[0..k) <- new`, `k` the length of `new`; the bytes above keep their values. -/
def overlay (new old : List Byte) : List Byte := new ++ old.drop new.length

/-- The accumulated bytes, `rx_buf[0..rx_len)` (R27). -/
def State.received (s : State) : List Byte := s.rxBuf.take s.rxLen

/-- The pending received frame, `mb_buf[0..mb_len)` (R28). -/
def State.mailbox (s : State) : List Byte := s.mbBuf.take s.mbLen

/-- The outbound frame in the transmit buffer, `tx_buf[0..tx_len)` (R29). -/
def State.txFrame (s : State) : List Byte := s.txBuf.take s.txLen

/-- The response held for EMIT, `disp_out[0..disp_out_len)` (R32). -/
def State.heldFrame (s : State) : List Byte := s.dispOut.take s.dispOutLen

/-- An output of the current step (R12 `emit`). -/
def State.emitted (s : State) (o : Output) : State := { s with outputs := s.outputs ++ [o] }

/-! ### The dispatcher's answer (spec/43_dispatcher.md) -/

/-- A complete outbound ADU held for EMIT: the last three writes of R179 and of R180. -/
def holdFrame (o : List Byte) (s : State) : State :=
  { s with dispOut := overlay o s.dispOut, dispOutLen := o.length, dispPhase := .holding }

/-- `BuildResponse`: byte 0 is the station address, which equals LOCAL_ADDR after the address filter (R179, D32). -/
def buildResponse (fc : Byte) (payload : List Byte) (s : State) : State :=
  holdFrame (responseFrame s.cfg.localAddr fc payload) s

/-- `BuildException`, the one way a Modbus exception is taken (R180, R222). There is no return from one (R231). -/
def buildException (fc : Byte) (code : ExceptionCode) (s : State) : State :=
  holdFrame (exceptionFrame s.cfg.localAddr fc code) s

/-- A request answered: the handler's store and its response held for EMIT, in one step (R171, R178). A request is run
only by DISPATCH, so it has no step unless `disp_phase = Ready` (R100, R171). -/
def answer (fc : Byte) (h : Store × Reply) (s : State) : Host.Outcome State Fault Refusal :=
  if s.dispPhase = .ready then
    match h.2 with
    | .success payload => .next (buildResponse fc payload { s with store := h.1 })
    | .exception code => .next (buildException fc code { s with store := h.1 })
  else .fault .dispatchWhileHolding

/-! ### Configuration (R9, I11) -/

/-- The legal configurations: every range and constraint of R9, and initial contents that lie inside the spaces. -/
def legalConfig (c : Config) : Bool :=
  1 ≤ c.charTicks ∧ 1 ≤ c.t15Ticks ∧ c.t15Ticks < c.t35Ticks ∧ 4 ≤ c.rxCap ∧ 8 ≤ c.txCap ∧
    c.nCoils ≤ 65536 ∧ c.nDi ≤ 65536 ∧ c.nHr ≤ 65536 ∧ c.nIr ≤ 65536 ∧ Memory.wf c c.storeInit

end Sys2Proof.Machine
end

