-- ==== Sys2Proof/Machine/Assembler.lean ====
section
/-! DEFINITION. The frame assembler and the silence timer's step (spec/41_silence_timer.md, spec/42_frame_assembler.md): the
meanings of RX_BYTE, TX_DONE and TICK, and the operations `read` and `write` that the foreground calls. -/

namespace Sys2Proof.Machine

/-- The discard of a partial frame by a byte that finds `mid_fired = 1`, in either state (R141, conflict C1). -/
def discardStale (s : State) : State := if s.midFired then { s with rxLen := 0 } else s

/-- The byte appended, or dropped when the accumulator is full (R141, R142). -/
def accumulate (b : Byte) (s : State) : State :=
  if s.rxLen < s.cfg.rxCap then { s with rxBuf := s.rxBuf.set s.rxLen b, rxLen := s.rxLen + 1 } else s

/-- RX_BYTE (R141): the discard test reads `mid_fired` before the restart clears it. -/
def execRxByte (b : Byte) (s : State) : Host.Outcome State Fault Refusal :=
  .next { accumulate b (restartTimer (discardStale s)) with faState := .accumulating }

/-- `FA_EndOfFrame()`, the frame boundary: publish, overwriting any frame not yet read, and clear (R143, R144). -/
def endOfFrame (s : State) : State :=
  if 0 < s.rxLen then
    { s with mbBuf := overlay s.received s.mbBuf, mbLen := s.rxLen, rxLen := 0, faState := .idle }
  else { s with faState := .idle }

/-- `read()` (R145): the frame, and the state with the slot empty (take-and-clear). -/
def faRead (s : State) : List Byte × State := (s.mailbox, { s with mbLen := 0 })

/-- `TX_Arm()` (R148). It does not restart the timer. -/
def txArm (s : State) : State :=
  { s with txState := .txActive, txCur := 0, txInflight := true, outputs := s.outputs ++ [.txOut (s.txBuf.getD 0 0)] }

/-- The frame copied into the transmit buffer (R146): at most TX_CAP bytes of it, the cursor at 0. -/
def fillTx (bytes : List Byte) (s : State) : State :=
  { s with
    txBuf := overlay (bytes.take s.cfg.txCap) s.txBuf
    txLen := (bytes.take s.cfg.txCap).length
    txCur := 0 }

/-- `write(bytes)` (R146, R147): the number of bytes accepted, and the state. During a transmission the frame in
progress is abandoned and the new one waits; a byte in flight also makes it wait. -/
def faWrite (bytes : List Byte) (s : State) : Nat × State :=
  if bytes.length = 0 then (0, s)
  else
    let t := fillTx bytes s
    (t.txLen,
      if t.txState = .txActive then { t with txState := .txPending }
      else if t.endFired ∧ ¬ t.txInflight then txArm t
      else { t with txState := .txPending })

/-- `TX_EndTimeoutGate()`, the deferred transmit (R150). -/
def txEndTimeoutGate (s : State) : State :=
  if s.txState = .txPending ∧ ¬ s.txInflight then txArm s else s

/-- The cursor advanced, and the next byte handed over or the transmission ended (R149, R151). -/
def txAdvance (s : State) : State :=
  if s.txCur + 1 < s.txLen then
    { s with txCur := s.txCur + 1, txInflight := true, outputs := s.outputs ++ [.txOut (s.txBuf.getD (s.txCur + 1) 0)] }
  else { s with txCur := s.txCur + 1, txState := .txIdle }

/-- TX_DONE (R149), enabled with a byte in flight. -/
def execTxDone (s : State) : Host.Outcome State Fault Refusal :=
  if s.txInflight then
    let t := restartTimer { s with txInflight := false }
    .next (if t.txState = .txActive then txAdvance t else t)
  else .fault .txDoneNothingInFlight

/-- The mid-timeout on the tick that reaches T15_TICKS (R124, R129). -/
def midTimeout (s : State) : State := if s.timCount = s.cfg.t15Ticks then fireMid s else s

/-- The end-timeout on the tick that reaches T35_TICKS: flags, halt, frame boundary, deferred transmit, in that order
(R125, R129). -/
def endTimeout (s : State) : State :=
  if s.timCount = s.cfg.t35Ticks then txEndTimeoutGate (endOfFrame (fireEnd s)) else s

/-- TICK (R129); a halted timer neither counts nor fires (R126). -/
def execTick (s : State) : Host.Outcome State Fault Refusal :=
  .next (if s.timRun then endTimeout (midTimeout (countTick s)) else s)

end Sys2Proof.Machine
end

