-- ==== Sys2Proof/Machine/Handlers.lean ====
section
/-! DEFINITION. The function-code handlers (spec/44_function_handlers.md): the shared bodies with R190's order of checks, and the
meanings of RDCOIL, RDDI, RDHR, RDIR, WRCOIL, WRHR, WRCOILS, WRHRS and ILLFN. -/

namespace Sys2Proof.Machine

/-- `ReadBits`, the body of 0x01 and 0x02, on a space of `cap` elements (R191). -/
def readBits (cells : Cells Bool) (cap txCap : Nat) (start qty : Word) : Reply :=
  if cap ≤ start.toNat then .exception .illegalDataAddress
  else if qty.toNat < 1 ∨ maxRdBits < qty.toNat then .exception .illegalDataValue
  else if ¬ rangeOk cap start qty then .exception .illegalDataAddress
  else if 255 < ceil8 qty.toNat ∨ txCap < 5 + ceil8 qty.toNat then .exception .illegalDataValue
  else .success (BitVec.ofNat 8 (ceil8 qty.toNat) :: packBits (readRun unlistedBit cells start.toNat qty.toNat))

/-- `ReadRegs`, the body of 0x03 and 0x04 (R192). -/
def readRegs (cells : Cells Word) (cap txCap : Nat) (start qty : Word) : Reply :=
  if cap ≤ start.toNat then .exception .illegalDataAddress
  else if qty.toNat < 1 ∨ maxRdRegs < qty.toNat then .exception .illegalDataValue
  else if ¬ rangeOk cap start qty then .exception .illegalDataAddress
  else if txCap < 5 + 2 * qty.toNat then .exception .illegalDataValue
  else .success (BitVec.ofNat 8 (2 * qty.toNat) :: regBytes (readRun unlistedWord cells start.toNat qty.toNat))

/-- `WriteSingleCoil` (R197): address before value. -/
def writeSingleCoil (c : Config) (m : Store) (a v : Word) : Store × Reply :=
  if c.nCoils ≤ a.toNat then (m, .exception .illegalDataAddress)
  else if v ≠ coilOn ∧ v ≠ coilOff then (m, .exception .illegalDataValue)
  else (memWrite m a.toNat (.coil (v = coilOn)), .success (echoFields a v))

/-- `WriteSingleRegister` (R198): every value is legal. -/
def writeSingleRegister (c : Config) (m : Store) (a v : Word) : Store × Reply :=
  if c.nHr ≤ a.toNat then (m, .exception .illegalDataAddress)
  else (memWrite m a.toNat (.hr v), .success (echoFields a v))

/-- `WriteMultipleCoils` (R199): every check precedes the first write (R61). -/
def writeMultipleCoils (c : Config) (m : Store) (start qty : Word) (bc : Byte) (data : List Byte) : Store × Reply :=
  if c.nCoils ≤ start.toNat then (m, .exception .illegalDataAddress)
  else if qty.toNat < 1 ∨ maxWrCoils < qty.toNat then (m, .exception .illegalDataValue)
  else if ¬ rangeOk c.nCoils start qty then (m, .exception .illegalDataAddress)
  else if bc.toNat ≠ ceil8 qty.toNat then (m, .exception .illegalDataValue)
  else if data.length < bc.toNat then (m, .exception .illegalDataValue)
  else (memWriteRun m start.toNat ((unpackBits data qty.toNat).map .coil), .success (echoFields start qty))

/-- `WriteMultipleRegisters` (R200). -/
def writeMultipleRegisters (c : Config) (m : Store) (start qty : Word) (bc : Byte) (data : List Byte) : Store × Reply :=
  if c.nHr ≤ start.toNat then (m, .exception .illegalDataAddress)
  else if qty.toNat < 1 ∨ maxWrRegs < qty.toNat then (m, .exception .illegalDataValue)
  else if ¬ rangeOk c.nHr start qty then (m, .exception .illegalDataAddress)
  else if bc.toNat ≠ 2 * qty.toNat then (m, .exception .illegalDataValue)
  else if data.length < bc.toNat then (m, .exception .illegalDataValue)
  else (memWriteRun m start.toNat ((dataWords data qty.toNat).map .hr), .success (echoFields start qty))

/-- 0x01 Read Coils (R193). -/
def execRdcoil (start qty : Word) (s : State) : Host.Outcome State Fault Refusal :=
  answer 0x01 (s.store, readBits s.store.coil s.cfg.nCoils s.cfg.txCap start qty) s

/-- 0x02 Read Discrete Inputs (R194). -/
def execRddi (start qty : Word) (s : State) : Host.Outcome State Fault Refusal :=
  answer 0x02 (s.store, readBits s.store.di s.cfg.nDi s.cfg.txCap start qty) s

/-- 0x03 Read Holding Registers (R195). -/
def execRdhr (start qty : Word) (s : State) : Host.Outcome State Fault Refusal :=
  answer 0x03 (s.store, readRegs s.store.hr s.cfg.nHr s.cfg.txCap start qty) s

/-- 0x04 Read Input Registers (R196). -/
def execRdir (start qty : Word) (s : State) : Host.Outcome State Fault Refusal :=
  answer 0x04 (s.store, readRegs s.store.ir s.cfg.nIr s.cfg.txCap start qty) s

/-- 0x05 Write Single Coil (R197). -/
def execWrcoil (a v : Word) (s : State) : Host.Outcome State Fault Refusal :=
  answer 0x05 (writeSingleCoil s.cfg s.store a v) s

/-- 0x06 Write Single Register (R198). -/
def execWrhr (a v : Word) (s : State) : Host.Outcome State Fault Refusal :=
  answer 0x06 (writeSingleRegister s.cfg s.store a v) s

/-- 0x0F Write Multiple Coils (R199). -/
def execWrcoils (start qty : Word) (bc : Byte) (data : List Byte) (s : State) : Host.Outcome State Fault Refusal :=
  answer 0x0F (writeMultipleCoils s.cfg s.store start qty bc data) s

/-- 0x10 Write Multiple Registers (R200). -/
def execWrhrs (start qty : Word) (bc : Byte) (data : List Byte) (s : State) : Host.Outcome State Fault Refusal :=
  answer 0x10 (writeMultipleRegisters s.cfg s.store start qty bc data) s

/-- Any other function code (R201): the response's byte 1 is `fc | 0x80`. -/
def execIllfn (fc : Byte) (s : State) : Host.Outcome State Fault Refusal :=
  answer fc (s.store, .exception .illegalFunction) s

end Sys2Proof.Machine
end

