-- ==== Sys2Proof/Machine/Foreground.lean ====
section
/-! DEFINITION. The foreground's two steps (spec/43_dispatcher.md): DISPATCH with its validation pipeline and router, and EMIT. -/

namespace Sys2Proof.Machine

/-- The router (R177): a decoded request goes to its handler. The last eight arms are never reached, since no frame
decodes to an event. -/
def runRequest (i : Instr) (s : State) : Host.Outcome State Fault Refusal :=
  match i with
  | .rdcoil start qty => execRdcoil start qty s
  | .rddi start qty => execRddi start qty s
  | .rdhr start qty => execRdhr start qty s
  | .rdir start qty => execRdir start qty s
  | .wrcoil a v => execWrcoil a v s
  | .wrhr a v => execWrhr a v s
  | .wrcoils start qty bc data => execWrcoils start qty bc data s
  | .wrhrs start qty bc data => execWrhrs start qty bc data s
  | .illfn fc => execIllfn fc s
  | .rxByte _ => .refused .notARequest
  | .txDone => .refused .notARequest
  | .tick => .refused .notARequest
  | .dispatch => .refused .notARequest
  | .emit => .refused .notARequest
  | .hostRead _ _ => .refused .notARequest
  | .hostWrite _ _ => .refused .notARequest
  | .reset => .refused .notARequest

/-- The optional diagnostic output (R173). -/
def diagnose (f : List Byte) (s : State) : State := if s.cfg.hasDiag then s.emitted (.diag f) else s

/-- `Validate` and what follows it (R184, R171): length, diagnostic, station address, CRC, then the router; a request
short of its fixed fields is dropped (R88). A drop leaves the state `read` left, but for the diagnostic (R221). -/
def validate (f : List Byte) (s : State) : Host.Outcome State Fault Refusal :=
  if f.length < 4 then .next s
  else
    let t := diagnose f s
    if f.getD 0 0 ≠ t.cfg.localAddr then .next t
    else if ¬ crcPasses f then .next t
    else
      match decode (framePdu f) with
      | .request i => runRequest i t
      | .rejected _ => .next t

/-- DISPATCH (R171): an empty mailbox leaves everything as it was (D36). -/
def execDispatch (s : State) : Host.Outcome State Fault Refusal :=
  if s.dispPhase = .ready then
    if s.mbLen = 0 then .next s else validate (faRead s).1 (faRead s).2
  else .fault .dispatchWhileHolding

/-- EMIT (R181): `write` the held frame, and `Ready` again. -/
def execEmit (s : State) : Host.Outcome State Fault Refusal :=
  if s.dispPhase = .holding then
    .next { (faWrite s.heldFrame s).2 with dispOutLen := 0, dispPhase := .ready }
  else .fault .emitWhileReady

end Sys2Proof.Machine
end

