-- ==== Sys2Proof/Machine/Outside.lean ====
section
/-! DEFINITION. The host's and the reset source's events: HOST_READ, HOST_WRITE (spec/20_memory.md) and RESET
(spec/70_reset_and_hazards.md); and which instruction an event is. -/

namespace Sys2Proof.Machine

/-- HOST_READ(S, a) (R71): the value goes to the host; no state changes. -/
def execHostRead (sp : Space) (a : Word) (s : State) : Host.Outcome State Fault Refusal :=
  if a.toNat < s.cfg.capacity sp then .next (s.emitted (.hostValue (memRead s.store sp a.toNat)))
  else .refused .hostIndexOutOfSpace

/-- HOST_WRITE(S, a, v) (R70), any of the four spaces. -/
def execHostWrite (a : Word) (v : Item) (s : State) : Host.Outcome State Fault Refusal :=
  if a.toNat < s.cfg.capacity v.space then .next { s with store := memWrite s.store a.toNat v }
  else .refused .hostIndexOutOfSpace

/-- RESET (R250): every element at its reset value, the configuration inputs sampled (R252); an illegal configuration
is refused (R9). The outside's own record, `input` and `outputs`, is no state of the block and stays. -/
def execReset (s : State) : Host.Outcome State Fault Refusal :=
  if legalConfig s.cfgPins then
    .next { State.afterReset s.cfgPins with input := s.input, outputs := s.outputs }
  else .refused .illegalConfiguration

/-- The instruction an event is (R16, R100). -/
def Event.instr : Event → Instr
  | .rxByte b => .rxByte b
  | .txDone => .txDone
  | .tick => .tick
  | .dispatch => .dispatch
  | .emit => .emit
  | .hostRead sp a => .hostRead sp a
  | .hostWrite a v => .hostWrite a v
  | .reset => .reset

end Sys2Proof.Machine
end

