-- ==== Sys2Proof/Machine/Dispatch.lean ====
section
/-! DEFINITION. One arm per instruction. -/

namespace Sys2Proof.Machine

def exec (i : Instr) (s : State) : Host.Outcome State Fault Refusal :=
  match i with
  -- the function codes (R93)
  | .rdcoil start qty => Sys2Proof.Machine.execRdcoil start qty s
  | .rddi start qty => Sys2Proof.Machine.execRddi start qty s
  | .rdhr start qty => Sys2Proof.Machine.execRdhr start qty s
  | .rdir start qty => Sys2Proof.Machine.execRdir start qty s
  | .wrcoil a v => Sys2Proof.Machine.execWrcoil a v s
  | .wrhr a v => Sys2Proof.Machine.execWrhr a v s
  | .wrcoils start qty bc data => Sys2Proof.Machine.execWrcoils start qty bc data s
  | .wrhrs start qty bc data => Sys2Proof.Machine.execWrhrs start qty bc data s
  | .illfn fc => Sys2Proof.Machine.execIllfn fc s
  -- the events (R100)
  | .rxByte b => Sys2Proof.Machine.execRxByte b s
  | .txDone => Sys2Proof.Machine.execTxDone s
  | .tick => Sys2Proof.Machine.execTick s
  | .dispatch => Sys2Proof.Machine.execDispatch s
  | .emit => Sys2Proof.Machine.execEmit s
  | .hostRead sp a => Sys2Proof.Machine.execHostRead sp a s
  | .hostWrite a v => Sys2Proof.Machine.execHostWrite a v s
  | .reset => Sys2Proof.Machine.execReset s

end Sys2Proof.Machine
end

