-- ==== Sys2Proof/Machine/Script.lean ====
section
/-! DEFINITION. Event scripts (R101) and the pseudo-events of R102, and the admission of the next event, which `step` calls. -/

namespace Sys2Proof.Machine

/-- `SILENCE(k)` (R102). -/
def silence (k : Nat) : List Event := List.replicate k .tick

/-- `RX_FRAME(f, g)`: the bytes with `g` ticks between them and none after the last (R102). -/
def rxFrame (g : Nat) : List Byte → List Event
  | [] => []
  | [b] => [.rxByte b]
  | b :: bs => .rxByte b :: (silence g ++ rxFrame g bs)

/-- The events of a script run one after another, up to the first stop. -/
def play : List Event → State → Host.Outcome State Fault Refusal
  | [], s => .next s
  | e :: es, s =>
    match exec e.instr s with
    | .next t => play es t
    | .fault r => .fault r
    | .refused r => .refused r

/-- `TX_DONE` while a byte is in flight, `fuel` times at most. -/
def drainFor : Nat → State → Host.Outcome State Fault Refusal
  | 0, s => .next s
  | fuel + 1, s =>
    if s.txInflight then
      match exec .txDone s with
      | .next t => drainFor fuel t
      | .fault r => .fault r
      | .refused r => .refused r
    else .next s

/-- `DRAIN_TX` (R102): the bytes still to be sent, and one in flight for a replaced frame, bound the repetitions. -/
def drainTx (s : State) : Host.Outcome State Fault Refusal := drainFor (s.txLen - s.txCur + 1) s

/-- `POLL` (R102): DISPATCH, then EMIT if a response is held. -/
def poll (s : State) : Host.Outcome State Fault Refusal :=
  match exec .dispatch s with
  | .next t => if t.dispPhase = .holding then exec .emit t else .next t
  | .fault r => .fault r
  | .refused r => .refused r

/-- Whether an event may have a step: RESET, which samples the configuration anew (R252), and any other event once a
RESET has been taken (R254) under a legal configuration (R9). -/
abbrev Event.admitted (e : Event) (s : State) : Prop := e = .reset ∨ (s.hasReset = true ∧ legalConfig s.cfg)

/-- One event taken from the input (R7). How an event that has no step stops is the model's choice (log 14, log 15). -/
def takeEvent (e : Event) (rest : List Event) (s : State) : Host.Outcome State Fault Refusal :=
  if e.admitted s then exec e.instr { s with input := rest }
  else if s.hasReset then .refused .illegalConfiguration
  else .fault .eventBeforeReset

/-- A whole request frame put into the mailbox, a DISPATCH the next event, and the dispatcher ready for it after a RESET:
what it takes for the next step to run that request (log 9). -/
def State.withRequest (s : State) (f : List Byte) : State :=
  { s with
    mbBuf := overlay f s.mbBuf
    mbLen := f.length
    dispPhase := .ready
    dispOutLen := 0
    hasReset := true
    input := .dispatch :: s.input }

end Sys2Proof.Machine
end

