-- ==== Sys2Proof/Machine/Step.lean ====
section
/-! DEFINITION. One step: the next event of the input (R7, R13); and where a table word goes so that the next step runs it. -/

namespace Sys2Proof.Machine

/-- The machine takes one atomic step per event (R7, R13). With no event to come it stays as it is (log 4). -/
def step (s : State) : Host.Outcome State Fault Refusal :=
  match s.input with
  | [] => .next s
  | e :: rest => takeEvent e rest s

/-- The request of a table word, from LOCAL_ADDR's master and with its CRC, as the frame the next DISPATCH drains. -/
def State.withFetchWord (s : State) (nbits w : Nat) : State :=
  s.withRequest (requestFrame s.cfg.localAddr (tablePdu nbits w))

end Sys2Proof.Machine
end

