-- ==== Sys2Proof/Safety.lean ====
section
/-! DEFINITION. What a good state and a safe run are, in the terms the claims use: enabled events (R100), the invariants of every
reachable state (R154, R23, R26, R29, R32), quiescence (R264), and shorthands for answers. -/

namespace Sys2Proof.Machine

/-- The next state, if there is one. -/
def nextOf : Host.Outcome State Fault Refusal → Option State
  | .next t => some t
  | .fault _ => none
  | .refused _ => none

/-- R100's column 'enabled when'; for RESET also R9's legal configuration. -/
def Event.enabled (s : State) : Event → Prop
  | .rxByte _ => True
  | .txDone => s.txInflight = true
  | .tick => True
  | .dispatch => s.dispPhase = .ready
  | .emit => s.dispPhase = .holding
  | .hostRead sp a => a.toNat < s.cfg.capacity sp
  | .hostWrite a v => a.toNat < s.cfg.capacity v.space
  | .reset => legalConfig s.cfgPins

/-- A held response is a complete outbound ADU of this station, CRC included, that fits the transmit buffer (R32, R81). -/
structure State.HeldFrameOk (s : State) : Prop where
  enough : 5 ≤ s.dispOutLen
  fits : s.dispOutLen ≤ s.cfg.txCap
  station : s.heldFrame.getD 0 0 = s.cfg.localAddr
  crc : crcPasses s.heldFrame = true

/-- The invariants of every reachable state: R154 items 1 to 6, and the ranges of R22. -/
structure State.Inv (s : State) : Prop where
  /-- R9. -/
  legal : legalConfig s.cfg
  /-- R22: the buffers have their capacities. -/
  rxBufLength : s.rxBuf.length = s.cfg.rxCap
  mbBufLength : s.mbBuf.length = s.cfg.rxCap
  txBufLength : s.txBuf.length = s.cfg.txCap
  dispOutLength : s.dispOut.length = s.cfg.txCap
  /-- R22: the fill counts stay in range (R154 item 2 for the transmit side). -/
  rxFits : s.rxLen ≤ s.cfg.rxCap
  mbFits : s.mbLen ≤ s.cfg.rxCap
  txFits : s.txLen ≤ s.cfg.txCap
  cursor : s.txCur ≤ s.txLen
  /-- R154 item 1. -/
  accumulating : s.faState = .accumulating ↔ 0 < s.rxLen
  /-- R154 item 3. -/
  idleQuiet : s.txState = .txIdle → s.txInflight = false
  /-- R154 item 4. -/
  activeSending : s.txState = .txActive → s.txInflight = true ∧ s.txCur < s.txLen
  /-- A pending frame has a first byte to send (R148). -/
  pendingFilled : s.txState = .txPending → 0 < s.txLen
  /-- R154 items 5 and 6, with R23, R124 and R125: the latches tell where the count stands. -/
  midIffCount : s.midFired = true ↔ s.cfg.t15Ticks ≤ s.timCount
  endIffCount : s.endFired = true ↔ s.timCount = s.cfg.t35Ticks
  haltIffCount : s.timRun = false ↔ s.timCount = s.cfg.t35Ticks
  countBound : s.timCount ≤ s.cfg.t35Ticks
  /-- The end-timeout that halts the timer empties the accumulator, and a byte starts the timer again (R141, R143). -/
  haltedEmpty : s.timRun = false → s.rxLen = 0
  /-- R32. -/
  readyEmpty : s.dispPhase = .ready → s.dispOutLen = 0
  holdingFull : s.dispPhase = .holding → s.HeldFrameOk
  /-- The Register Store keeps its canonical form inside the spaces (R63). -/
  memory : Memory.wf s.cfg s.store

/-- R264: nothing in the mailbox, nothing held, nothing to send, and either the timer has halted or nothing is
accumulated and no further byte comes. -/
structure State.Quiescent (s : State) : Prop where
  mailbox : s.mbLen = 0
  dispatcher : s.dispPhase = .ready
  transmitter : s.txState = .txIdle
  inflight : s.txInflight = false
  line : s.timRun = false ∨ (s.rxLen = 0 ∧ ∀ b, Event.rxByte b ∉ s.input)

/-- The DIAG outputs of a frame that passed the length check (R173). -/
def diagOutputs (s : State) (f : List Byte) : List Output := if s.cfg.hasDiag then [.diag f] else []

/-- Instruction `i`, run in `s`, answers: the store becomes `m`, the frame `o` is held for EMIT, and nothing else
changes. -/
def AnswersWith (i : Instr) (s : State) (m : Store) (o : List Byte) : Prop :=
  exec i s = .next { s with
    store := m, dispOut := o ++ s.dispOut.drop o.length, dispOutLen := o.length, dispPhase := .holding }

/-- A frame with the CRC of all its bytes appended, low byte first (R57, R114). -/
def sealed (o : List Byte) : List Byte := o ++ [(crc16 o).setWidth 8, (crc16 o >>> 8).setWidth 8]

/-- The A-EXC frame (R92). -/
def excFrame (s : State) (fc code : Byte) : List Byte := sealed [s.cfg.localAddr, fc ||| 0x80, code]

/-- The A-ECHO frame (R91) of a request with the 16-bit fields `a` and `v`. -/
def echoFrame (s : State) (fc : Byte) (a v : Word) : List Byte :=
  sealed [s.cfg.localAddr, fc, (a >>> 8).setWidth 8, a.setWidth 8, (v >>> 8).setWidth 8, v.setWidth 8]

end Sys2Proof.Machine
end

