-- ==== Sys2Proof/Certificates/Slice0/Obligations.lean ====
section
/-! DEFINITION. The statements about the model, each over one claim of spec/ (cited in OBLIGATIONS.json). -/

open Sys2Proof Sys2Proof.Machine

/-! ### Encoding -/

/-- R84 to R87, R93: decoding the encoding of any well-formed request gives the request, every operand at every value. -/
def Obligations.DecodeOfEncodeIsTheRequest : Prop :=
  ∀ (i : Instr) (pdu : List Byte), i.wellFormed = true → encode i = some pdu → decode pdu = .request i

/-- R88: bytes after a request's last needed field are ignored; a request with a byte count must carry that many data
bytes for the bytes after them to be extra. -/
def Obligations.DecodeIgnoresExtraBytes : Prop :=
  ∀ (i : Instr) (pdu extra : List Byte), i.wellFormed = true → encode i = some pdu →
    (∀ start qty bc data, i = .wrcoils start qty bc data ∨ i = .wrhrs start qty bc data → data.length = bc.toNat) →
    decode (pdu ++ extra) = .request i

/-- R88, R94, R98: a PDU is rejected exactly when it is short of its format's fixed fields (4 bytes for 0x01 to 0x06, 5
for 0x0F and 0x10), and any other code is ILLFN whatever follows it. -/
def Obligations.ShortRequestsAreRejected : Prop :=
  ∀ (fc : Byte) (d : List Byte),
    (fc ∈ [0x01#8, 0x02#8, 0x03#8, 0x04#8, 0x05#8, 0x06#8] →
      (decode (fc :: d) = .rejected (.missingFields fc) ↔ d.length < 4)) ∧
    (fc ∈ [0x0F#8, 0x10#8] → (decode (fc :: d) = .rejected (.missingFields fc) ↔ d.length < 5)) ∧
    (fc ∉ [0x01#8, 0x02#8, 0x03#8, 0x04#8, 0x05#8, 0x06#8, 0x0F#8, 0x10#8] → decode (fc :: d) = .request (.illfn fc))

/-- R84, R88, R93: whatever decodes is a well-formed request whose encoding the bytes begin with. -/
def Obligations.DecodedBytesBeginWithTheEncoding : Prop :=
  ∀ (pdu : List Byte) (i : Instr), decode pdu = .request i →
    i.wellFormed = true ∧ ∃ bytes rest, encode i = some bytes ∧ pdu = bytes ++ rest

/-- R84 to R87: requests written out byte by byte, from the frames of V30, V46, V50, V53, V58 and V29. -/
def Obligations.WrittenOutRequestsDecode : Prop :=
  decode [0x03, 0x00, 0x00, 0x00, 0x02] = .request (.rdhr 0x0000 0x0002) ∧
  decode [0x05, 0x00, 0x05, 0xFF, 0x00] = .request (.wrcoil 0x0005 0xFF00) ∧
  decode [0x06, 0x00, 0x01, 0x00, 0x03] = .request (.wrhr 0x0001 0x0003) ∧
  decode [0x0F, 0x00, 0x00, 0x00, 0x0A, 0x02, 0xCD, 0x01] = .request (.wrcoils 0x0000 0x000A 0x02 [0xCD, 0x01]) ∧
  decode [0x10, 0x00, 0x00, 0x00, 0x01, 0x02, 0x00, 0x0A] = .request (.wrhrs 0x0000 0x0001 0x02 [0x00, 0x0A]) ∧
  decode [0x2B, 0x0E, 0x01, 0x00] = .request (.illfn 0x2B)

/-! ### The CRC engine -/

/-- R110 and R112's value: the seed for the empty range, and each byte XORed into the low half followed by eight
conditional shifts. -/
def Obligations.CrcIsTheBitwiseLoop : Prop :=
  crc16 [] = 0xFFFF ∧
  ∀ (f : List Byte) (b : Byte),
    crc16 (f ++ [b]) =
      (fun c : Word => if c.getLsbD 0 then (c >>> 1) ^^^ 0xA001 else c >>> 1)^[8] (crc16 f ^^^ b.setWidth 16)

/-- R111: the table holds the inner loop of every byte, and the table form gives the bitwise form's value. -/
def Obligations.CrcTableFormIsTheBitwiseForm : Prop :=
  crcTable.length = 256 ∧
  (∀ x : Byte, crcTable.getD x.toNat 0 =
    (fun c : Word => if c.getLsbD 0 then (c >>> 1) ^^^ 0xA001 else c >>> 1)^[8] (x.setWidth 16)) ∧
  ∀ f : List Byte,
    f.foldl (fun (c : Word) (b : Byte) => (c >>> 8) ^^^ crcTable.getD ((c ^^^ b.setWidth 16).setWidth 8).toNat 0) 0xFFFF =
      crc16 f

/-- R113 and R57: a frame of at least 4 bytes passes exactly when its last two bytes are the CRC of the rest, low byte
first. -/
def Obligations.CrcCheckIsLowByteFirst : Prop :=
  ∀ (f : List Byte) (lo hi : Byte), 2 ≤ f.length →
    (crcPasses (f ++ [lo, hi]) = true ↔ lo = (crc16 f).setWidth 8 ∧ hi = (crc16 f >>> 8).setWidth 8)

/-- R113 to R115: a frame the CRC is appended to passes the check, and its CRC over all its bytes is 0. -/
def Obligations.AppendedCrcPasses : Prop :=
  ∀ o : List Byte, crcPasses (sealed o) = true ∧ crc16 (sealed o) = 0

/-! ### Steps -/

/-- R7, R13: with an event to come, after a RESET and under a legal configuration, or if the event is RESET, the step is
that event's instruction on the state without the event. The model's own choices: with none to come the state stays
(log 4), and an event that has no step because the configuration is illegal is refused by name (log 14). -/
def Obligations.StepRunsTheNextEvent : Prop :=
  ∀ s : State,
    (s.input = [] → step s = .next s) ∧
    ∀ (e : Event) (rest : List Event), s.input = e :: rest →
      ((s.hasReset = true ∧ legalConfig s.cfg) ∨ e = .reset → step s = exec e.instr { s with input := rest }) ∧
      (s.hasReset = true → ¬ legalConfig s.cfg → e ≠ .reset → step s = .refused .illegalConfiguration)

/-- R171 to R177: a frame that passes the length, address and CRC checks and decodes is run as the request it decodes
to, with the mailbox emptied and the frame on DIAG. -/
def Obligations.DispatchRunsTheDecodedRequest : Prop :=
  ∀ (s : State) (f : List Byte) (i : Instr),
    s.dispPhase = .ready → s.mbBuf.take s.mbLen = f → s.mbLen ≠ 0 → 4 ≤ f.length →
    f.getD 0 0 = s.cfg.localAddr →
    f.getD (f.length - 2) 0 = (crc16 (f.take (f.length - 2))).setWidth 8 →
    f.getD (f.length - 1) 0 = (crc16 (f.take (f.length - 2)) >>> 8).setWidth 8 →
    decode ((f.take (f.length - 2)).drop 1) = .request i →
    exec .dispatch s = exec i { s with mbLen := 0, outputs := s.outputs ++ diagOutputs s f }

/-- The model's own loading of a table word (log 9, log 10): the next step runs the instruction the decoder reads from
the word, on the state that the DISPATCH's `read` leaves. -/
def Obligations.StepRunsThePlacedTableWord : Prop :=
  ∀ (s : State) (nbits w : Nat) (i : Instr),
    legalConfig s.cfg → decodeTableWord nbits w = some i →
    step (s.withFetchWord nbits w) =
      exec i { s.withFetchWord nbits w with
        input := s.input, mbLen := 0, outputs := s.outputs ++ diagOutputs s (s.withFetchWord nbits w).mailbox }

/-- R100, R223: an event has a step exactly when its enabling condition holds. -/
def Obligations.EventsStepExactlyWhenEnabled : Prop :=
  ∀ (e : Event) (s : State), (∃ t, exec e.instr s = .next t) ↔ e.enabled s

/-- How an event that R100, R149, R171, R181, R70, R71 or R9 gives no step stops, the model's own choice: the faults named
after TX_DONE, DISPATCH and EMIT (log 7), the refusal of a host access outside the space (log 7) and the refusal of RESET
under an illegal configuration (log 14). -/
def Obligations.DisabledEventsStopByName : Prop :=
  ∀ s : State,
    (s.txInflight = false → exec .txDone s = .fault .txDoneNothingInFlight) ∧
    (s.dispPhase = .holding → exec .dispatch s = .fault .dispatchWhileHolding) ∧
    (s.dispPhase = .ready → exec .emit s = .fault .emitWhileReady) ∧
    (∀ sp a, s.cfg.capacity sp ≤ a.toNat → exec (.hostRead sp a) s = .refused .hostIndexOutOfSpace) ∧
    (∀ a v, s.cfg.capacity v.space ≤ a.toNat → exec (.hostWrite a v) s = .refused .hostIndexOutOfSpace) ∧
    (¬ legalConfig s.cfgPins → exec .reset s = .refused .illegalConfiguration)

/-! ### DISPATCH: drops, and at most one answer -/

/-- R171, R172, R174, R175, R88, R221: an empty mailbox changes nothing; a frame shorter than 4 bytes is dropped with no
DIAG; a frame to another station, with a wrong CRC, or short of its function's fields is dropped after its DIAG. A drop
empties the mailbox and changes nothing else. -/
def Obligations.DispatchDropsSilently : Prop :=
  ∀ (s : State) (f : List Byte), s.dispPhase = .ready → s.mbBuf.take s.mbLen = f → s.mbLen = f.length →
    (f = [] → exec .dispatch s = .next s) ∧
    (0 < f.length → f.length < 4 → exec .dispatch s = .next { s with mbLen := 0 }) ∧
    (4 ≤ f.length →
      f.getD 0 0 ≠ s.cfg.localAddr ∨
      (f.getD (f.length - 2) 0, f.getD (f.length - 1) 0) ≠
        ((crc16 (f.take (f.length - 2))).setWidth 8, (crc16 (f.take (f.length - 2)) >>> 8).setWidth 8) ∨
      (f.getD 1 0 ∈ [0x01#8, 0x02#8, 0x03#8, 0x04#8, 0x05#8, 0x06#8] ∧ f.length < 8) ∨
      (f.getD 1 0 ∈ [0x0F#8, 0x10#8] ∧ f.length < 9) →
      exec .dispatch s = .next { s with mbLen := 0, outputs := s.outputs ++ diagOutputs s f })

/-- R171, R178, R182: DISPATCH on any mailbox completes with the slot empty, and either drops the frame, with the store
as it was and nothing held, or holds exactly one frame of this station with the request's function code or that code
with bit 7 set. -/
def Obligations.DispatchAnswersAtMostOnce : Prop :=
  ∀ s : State, s.Inv → s.dispPhase = .ready →
    ∃ t, exec .dispatch s = .next t ∧ t.mbLen = 0 ∧
      ((t.dispPhase = .ready ∧ t.store = s.store ∧ t.dispOutLen = 0) ∨
       (t.dispPhase = .holding ∧ t.HeldFrameOk ∧
        (t.heldFrame.getD 1 0 = s.mailbox.getD 1 0 ∨ t.heldFrame.getD 1 0 = s.mailbox.getD 1 0 ||| 0x80)))

/-- R178, R183: if DISPATCH leaves no frame held, or an exception response, the Register Store is as it was; and it
differs only after 0x05, 0x06, 0x0F or 0x10. -/
def Obligations.RejectedRequestsLeaveTheStore : Prop :=
  ∀ s t : State, exec .dispatch s = .next t → t.store ≠ s.store →
    t.dispPhase = .holding ∧ t.heldFrame.getD 1 0 ∈ [0x05#8, 0x06#8, 0x0F#8, 0x10#8] ∧
      s.mailbox.getD 1 0 = t.heldFrame.getD 1 0

/-! ### The function codes -/

/-- R193, R191, R89, R58: a read of `qty` coils in range, whose answer fits, answers with the points packed LSB-first
and zero padding, and changes nothing but the dispatcher's output. -/
def Obligations.ReadCoilsAnswersThePoints : Prop :=
  ∀ (s : State) (start qty : Word), s.dispPhase = .ready → 1 ≤ qty.toNat → qty.toNat ≤ 2000 →
    start.toNat + qty.toNat ≤ s.cfg.nCoils → 5 + (qty.toNat + 7) / 8 ≤ s.cfg.txCap →
    ∃ data : List Byte, data.length = (qty.toNat + 7) / 8 ∧
      (∀ i < 8 * data.length, (data.getD (i / 8) 0).getLsbD (i % 8) =
        (decide (i < qty.toNat) && cellRead false s.store.coil (start.toNat + i))) ∧
      AnswersWith (.rdcoil start qty) s s.store
        (sealed (s.cfg.localAddr :: 0x01 :: BitVec.ofNat 8 data.length :: data))

/-- R194, R191, R89, R58: the same against the discrete inputs. -/
def Obligations.ReadDiscreteInputsAnswersThePoints : Prop :=
  ∀ (s : State) (start qty : Word), s.dispPhase = .ready → 1 ≤ qty.toNat → qty.toNat ≤ 2000 →
    start.toNat + qty.toNat ≤ s.cfg.nDi → 5 + (qty.toNat + 7) / 8 ≤ s.cfg.txCap →
    ∃ data : List Byte, data.length = (qty.toNat + 7) / 8 ∧
      (∀ i < 8 * data.length, (data.getD (i / 8) 0).getLsbD (i % 8) =
        (decide (i < qty.toNat) && cellRead false s.store.di (start.toNat + i))) ∧
      AnswersWith (.rddi start qty) s s.store
        (sealed (s.cfg.localAddr :: 0x02 :: BitVec.ofNat 8 data.length :: data))

/-- R195, R192, R90: a read of `qty` holding registers in range, whose answer fits, answers with them in address order,
high byte first, and changes nothing but the dispatcher's output. -/
def Obligations.ReadHoldingRegistersAnswersTheWords : Prop :=
  ∀ (s : State) (start qty : Word), s.dispPhase = .ready → 1 ≤ qty.toNat → qty.toNat ≤ 125 →
    start.toNat + qty.toNat ≤ s.cfg.nHr → 5 + 2 * qty.toNat ≤ s.cfg.txCap →
    ∃ data : List Byte, data.length = 2 * qty.toNat ∧
      (∀ k < qty.toNat, data.getD (2 * k) 0 = (cellRead 0 s.store.hr (start.toNat + k) >>> 8).setWidth 8 ∧
        data.getD (2 * k + 1) 0 = (cellRead 0 s.store.hr (start.toNat + k)).setWidth 8) ∧
      AnswersWith (.rdhr start qty) s s.store
        (sealed (s.cfg.localAddr :: 0x03 :: BitVec.ofNat 8 (2 * qty.toNat) :: data))

/-- R196, R192, R90: the same against the input registers. -/
def Obligations.ReadInputRegistersAnswersTheWords : Prop :=
  ∀ (s : State) (start qty : Word), s.dispPhase = .ready → 1 ≤ qty.toNat → qty.toNat ≤ 125 →
    start.toNat + qty.toNat ≤ s.cfg.nIr → 5 + 2 * qty.toNat ≤ s.cfg.txCap →
    ∃ data : List Byte, data.length = 2 * qty.toNat ∧
      (∀ k < qty.toNat, data.getD (2 * k) 0 = (cellRead 0 s.store.ir (start.toNat + k) >>> 8).setWidth 8 ∧
        data.getD (2 * k + 1) 0 = (cellRead 0 s.store.ir (start.toNat + k)).setWidth 8) ∧
      AnswersWith (.rdir start qty) s s.store
        (sealed (s.cfg.localAddr :: 0x04 :: BitVec.ofNat 8 (2 * qty.toNat) :: data))

/-- R190 to R196, R222: the four reads refuse in R190's order: start out of range (0x02), quantity (0x03), range past
the end (0x02), response too long (0x03). Each answers with the A-EXC frame and leaves the store. -/
def Obligations.ReadsRefuseInOrder : Prop :=
  ∀ (s : State) (start qty : Word) (i : Instr) (fc : Byte) (cap max bc : Nat), s.dispPhase = .ready →
    (i, fc, cap, max, bc) ∈
      [(Instr.rdcoil start qty, 0x01#8, s.cfg.nCoils, 2000, (qty.toNat + 7) / 8),
       (Instr.rddi start qty, 0x02#8, s.cfg.nDi, 2000, (qty.toNat + 7) / 8),
       (Instr.rdhr start qty, 0x03#8, s.cfg.nHr, 125, 2 * qty.toNat),
       (Instr.rdir start qty, 0x04#8, s.cfg.nIr, 125, 2 * qty.toNat)] →
    (cap ≤ start.toNat → AnswersWith i s s.store (excFrame s fc 0x02)) ∧
    (start.toNat < cap → qty.toNat = 0 ∨ max < qty.toNat → AnswersWith i s s.store (excFrame s fc 0x03)) ∧
    (start.toNat < cap → 1 ≤ qty.toNat → qty.toNat ≤ max → cap < start.toNat + qty.toNat →
      AnswersWith i s s.store (excFrame s fc 0x02)) ∧
    (start.toNat < cap → 1 ≤ qty.toNat → qty.toNat ≤ max → start.toNat + qty.toNat ≤ cap → s.cfg.txCap < 5 + bc →
      AnswersWith i s s.store (excFrame s fc 0x03))

/-- R197, R96, R91: writing coil `a` on (0xFF00) or off (0x0000) answers with the echo; the coil is then as written and
every other element of every space, and all else but the dispatcher's output, is unchanged. -/
def Obligations.WriteSingleCoilSetsTheCoil : Prop :=
  ∀ (s : State) (a v : Word), s.dispPhase = .ready → Memory.wf s.cfg s.store → a.toNat < s.cfg.nCoils →
    v = 0xFF00 ∨ v = 0x0000 →
    ∃ m : Store, AnswersWith (.wrcoil a v) s m (echoFrame s 0x05 a v) ∧
      memRead m .coil a.toNat = .coil (v = 0xFF00) ∧
      ∀ sp x, sp ≠ .coil ∨ x ≠ a.toNat → memRead m sp x = memRead s.store sp x

/-- R198, R91: writing holding register `a` answers with the echo; it then holds `v`, every 16-bit value being legal, and
every other element of every space, and all else but the dispatcher's output, is unchanged. -/
def Obligations.WriteSingleRegisterSetsTheRegister : Prop :=
  ∀ (s : State) (a v : Word), s.dispPhase = .ready → Memory.wf s.cfg s.store → a.toNat < s.cfg.nHr →
    ∃ m : Store, AnswersWith (.wrhr a v) s m (echoFrame s 0x06 a v) ∧
      memRead m .hr a.toNat = .hr v ∧
      ∀ sp x, sp ≠ .hr ∨ x ≠ a.toNat → memRead m sp x = memRead s.store sp x

/-- R199, R58, R91, with MAX_WR_COILS = 1968 (log 13, the model's choice of limit): a write of `qty` coils in range with the right byte count and enough data answers with the echo of
start and quantity; coil `start + k` is then bit `k mod 8` of data byte `k div 8`, whatever bytes follow, and every other
element is unchanged. -/
def Obligations.WriteMultipleCoilsSetsTheCoils : Prop :=
  ∀ (s : State) (start qty : Word) (bc : Byte) (data : List Byte), s.dispPhase = .ready → Memory.wf s.cfg s.store →
    1 ≤ qty.toNat → qty.toNat ≤ 1968 → start.toNat + qty.toNat ≤ s.cfg.nCoils →
    bc.toNat = (qty.toNat + 7) / 8 → bc.toNat ≤ data.length →
    ∃ m : Store, AnswersWith (.wrcoils start qty bc data) s m (echoFrame s 0x0F start qty) ∧
      (∀ k < qty.toNat, memRead m .coil (start.toNat + k) = .coil ((data.getD (k / 8) 0).getLsbD (k % 8))) ∧
      ∀ sp x, sp ≠ .coil ∨ x < start.toNat ∨ start.toNat + qty.toNat ≤ x → memRead m sp x = memRead s.store sp x

/-- R200, R56, R91, with MAX_WR_REGS = 123 (log 13, the model's choice of limit): a write of `qty` holding registers in range with the right byte count and enough data answers with
the echo of start and quantity; register `start + k` is then data bytes `2k` and `2k+1`, high byte first, and every other
element is unchanged. -/
def Obligations.WriteMultipleRegistersSetsTheRegisters : Prop :=
  ∀ (s : State) (start qty : Word) (bc : Byte) (data : List Byte), s.dispPhase = .ready → Memory.wf s.cfg s.store →
    1 ≤ qty.toNat → qty.toNat ≤ 123 → start.toNat + qty.toNat ≤ s.cfg.nHr →
    bc.toNat = 2 * qty.toNat → bc.toNat ≤ data.length →
    ∃ m : Store, AnswersWith (.wrhrs start qty bc data) s m (echoFrame s 0x10 start qty) ∧
      (∀ k < qty.toNat, memRead m .hr (start.toNat + k) =
        .hr (((data.getD (2 * k) 0).setWidth 16 <<< 8) ||| (data.getD (2 * k + 1) 0).setWidth 16)) ∧
      ∀ sp x, sp ≠ .hr ∨ x < start.toNat ∨ start.toNat + qty.toNat ≤ x → memRead m sp x = memRead s.store sp x

/-- R190, R197 to R200, R222: the four writes refuse in R190's order, with the A-EXC frame and the store unchanged: start
or point address (0x02), quantity (0x03), range past the end (0x02), then the coil value, or the byte count and the data
bytes carried (0x03). That quantities above 1968 and 123 are refused is the model's choice of limits (log 13). -/
def Obligations.WritesRefuseInOrder : Prop :=
  ∀ s : State, s.dispPhase = .ready →
    (∀ a v : Word,
      (s.cfg.nCoils ≤ a.toNat → AnswersWith (.wrcoil a v) s s.store (excFrame s 0x05 0x02)) ∧
      (a.toNat < s.cfg.nCoils → v ≠ 0xFF00 → v ≠ 0x0000 → AnswersWith (.wrcoil a v) s s.store (excFrame s 0x05 0x03)) ∧
      (s.cfg.nHr ≤ a.toNat → AnswersWith (.wrhr a v) s s.store (excFrame s 0x06 0x02))) ∧
    ∀ (start qty : Word) (bc : Byte) (data : List Byte) (i : Instr) (fc : Byte) (cap max need : Nat),
      (i, fc, cap, max, need) ∈
        [(Instr.wrcoils start qty bc data, 0x0F#8, s.cfg.nCoils, 1968, (qty.toNat + 7) / 8),
         (Instr.wrhrs start qty bc data, 0x10#8, s.cfg.nHr, 123, 2 * qty.toNat)] →
      (cap ≤ start.toNat → AnswersWith i s s.store (excFrame s fc 0x02)) ∧
      (start.toNat < cap → qty.toNat = 0 ∨ max < qty.toNat → AnswersWith i s s.store (excFrame s fc 0x03)) ∧
      (start.toNat < cap → 1 ≤ qty.toNat → qty.toNat ≤ max → cap < start.toNat + qty.toNat →
        AnswersWith i s s.store (excFrame s fc 0x02)) ∧
      (start.toNat < cap → 1 ≤ qty.toNat → qty.toNat ≤ max → start.toNat + qty.toNat ≤ cap →
        bc.toNat ≠ need ∨ data.length < bc.toNat → AnswersWith i s s.store (excFrame s fc 0x03))

/-- R201: any other function code, whatever data follows it, is answered with exception 0x01 and the store is not touched. -/
def Obligations.IllegalFunctionAnswersException : Prop :=
  ∀ (s : State) (fc : Byte),
    (fc ∉ [0x01#8, 0x02#8, 0x03#8, 0x04#8, 0x05#8, 0x06#8, 0x0F#8, 0x10#8] → ∀ d, decode (fc :: d) = .request (.illfn fc)) ∧
    (s.dispPhase = .ready → AnswersWith (.illfn fc) s s.store (sealed [s.cfg.localAddr, fc ||| 0x80, 0x01]))

/-- R55: the range check is the exact 17-bit sum against the capacity, and for one element it is `a < capacity`. -/
def Obligations.RangeCheckDoesNotWrap : Prop :=
  ∀ (cap : Nat) (start count : Word),
    (rangeOk cap start count = true ↔ (start.setWidth 17 + count.setWidth 17).toNat ≤ cap) ∧
    (rangeOk cap start 1 = true ↔ start.toNat < cap)

/-- R62: a valid write request repeated leaves the same store and holds the same response. -/
def Obligations.RepeatedWriteChangesNothing : Prop :=
  ∀ (s t : State) (i : Instr), s.Inv → exec i s = .next t →
    (∃ a v, i = .wrcoil a v ∨ i = .wrhr a v) ∨ (∃ start qty bc data, i = .wrcoils start qty bc data ∨ i = .wrhrs start qty bc data) →
    exec i { t with dispPhase := .ready } = .next t

/-- The source's packing round trip (V4; R58, R193, R199): coils written by 0x0F and then read by 0x01 come back as the
same bits, whatever the last byte's unused bits were. That the write succeeds for up to 1968 coils is the model's choice
of limit (log 13). -/
def Obligations.CoilsWrittenAreReadBack : Prop :=
  ∀ (s t u : State) (start qty : Word) (bc : Byte) (data : List Byte), s.Inv →
    1 ≤ qty.toNat → qty.toNat ≤ 1968 → start.toNat + qty.toNat ≤ s.cfg.nCoils → 5 + (qty.toNat + 7) / 8 ≤ s.cfg.txCap →
    bc.toNat = (qty.toNat + 7) / 8 → bc.toNat ≤ data.length →
    exec (.wrcoils start qty bc data) s = .next t →
    exec (.rdcoil start qty) { t with dispPhase := .ready, dispOutLen := 0 } = .next u →
    u.heldFrame.getD 1 0 = 0x01 ∧ u.heldFrame.length = 5 + (qty.toNat + 7) / 8 ∧
    ∀ k < qty.toNat, (u.heldFrame.getD (3 + k / 8) 0).getLsbD (k % 8) = (data.getD (k / 8) 0).getLsbD (k % 8)

/-! ### The frame assembler and the silence timer -/

/-- R141, R142, R122, R27: a received byte discards what was accumulated before a mid-timeout, is appended if there is
room and dropped if not, restarts the timer and clears both latches; nothing else changes. -/
def Obligations.ReceivedByteIsAccumulated : Prop :=
  ∀ (s : State) (b : Byte) (old : List Byte), s.Inv →
    old = (if s.midFired then [] else s.rxBuf.take s.rxLen) →
    ∃ buf, exec (.rxByte b) s = .next { s with
        rxBuf := buf, rxLen := min (old.length + 1) s.cfg.rxCap, faState := .accumulating,
        timCount := 0, timRun := true, midFired := false, endFired := false } ∧
      buf.length = s.cfg.rxCap ∧ buf.take (min (old.length + 1) s.cfg.rxCap) = (old ++ [b]).take s.cfg.rxCap

/-- R129, R123 to R126, R143, R144, R150: the complete TICK step. A halted timer changes nothing. A tick below T35_TICKS
only counts, and fires the mid-timeout at T15_TICKS. The tick that reaches T35_TICKS halts, publishes what was accumulated
over whatever the mailbox held, and arms a pending frame if no byte is in flight. -/
def Obligations.TickCountsAndFires : Prop :=
  ∀ s : State, s.Inv →
    (s.timRun = false → exec .tick s = .next s) ∧
    (s.timRun = true → s.timCount + 1 < s.cfg.t35Ticks →
      exec .tick s = .next { s with
        timCount := s.timCount + 1, midFired := s.midFired || decide (s.timCount + 1 = s.cfg.t15Ticks) }) ∧
    (s.timRun = true → s.timCount + 1 = s.cfg.t35Ticks →
      ∃ buf n, exec .tick s = .next
          (let t := { s with
            timCount := s.cfg.t35Ticks, timRun := false, endFired := true, mbBuf := buf, mbLen := n, rxLen := 0, faState := .idle }
          if s.txState = .txPending ∧ s.txInflight = false then
            { t with
              txState := .txActive, txCur := 0, txInflight := true, outputs := s.outputs ++ [.txOut (s.txBuf.getD 0 0)] }
          else t) ∧
        (0 < s.rxLen → n = s.rxLen ∧ buf.take n = s.rxBuf.take s.rxLen ∧ buf.length = s.cfg.rxCap) ∧
        (s.rxLen = 0 → n = s.mbLen ∧ buf = s.mbBuf))

/-- R149, R151, R122: TX_DONE with a byte in flight restarts the timer; in TxActive it advances the cursor and hands over
the next byte, or ends the transmission after the last; otherwise it sends nothing. Nothing else changes. With no byte in
flight it has no step. -/
def Obligations.TxDoneSendsTheNextByte : Prop :=
  ∀ (s r : State), r = { s with timCount := 0, timRun := true, midFired := false, endFired := false } →
    (s.txInflight = true → s.txState = .txActive → s.txCur + 1 < s.txLen → exec .txDone s =
      .next { r with txCur := s.txCur + 1, outputs := s.outputs ++ [.txOut (s.txBuf.getD (s.txCur + 1) 0)] }) ∧
    (s.txInflight = true → s.txState = .txActive → s.txLen ≤ s.txCur + 1 → exec .txDone s =
      .next { r with txCur := s.txCur + 1, txInflight := false, txState := .txIdle }) ∧
    (s.txInflight = true → s.txState ≠ .txActive → exec .txDone s = .next { r with txInflight := false }) ∧
    (s.txInflight = false → ∀ t, exec .txDone s ≠ .next t)

/-- R181, R146 to R148: EMIT puts the held frame into the transmit buffer with the cursor at 0 and is Ready again. It
starts the clock-out at once exactly when the bus is silent, nothing is in flight and no frame is being sent; otherwise
the frame waits. Nothing else changes. -/
def Obligations.EmitFillsAndArms : Prop :=
  ∀ s : State, s.Inv → s.dispPhase = .holding →
    ∃ buf, buf.take s.dispOutLen = s.dispOut.take s.dispOutLen ∧ buf.length = s.cfg.txCap ∧
      exec .emit s = .next
        (let t := { s with
          txBuf := buf, txLen := s.dispOutLen, txCur := 0, dispOutLen := 0, dispPhase := .ready }
        if s.txState ≠ .txActive ∧ s.endFired = true ∧ s.txInflight = false then
          { t with txState := .txActive, txInflight := true, outputs := s.outputs ++ [.txOut (s.dispOut.getD 0 0)] }
        else { t with txState := .txPending })

/-- R123 to R126, R143: `k` ticks after a restart, the count is `k` until it halts at T35_TICKS, and
each latch has fired exactly when its threshold has been reached; before T35_TICKS the accumulator is untouched, from then
on it is empty and what it held is in the mailbox. -/
def Obligations.SilenceRunsTheLatches : Prop :=
  ∀ (s : State) (k : Nat), s.Inv → s.timRun = true → s.timCount = 0 →
    ∃ t, play (silence k) s = .next t ∧ t.timCount = min k s.cfg.t35Ticks ∧
      (t.midFired = true ↔ s.cfg.t15Ticks ≤ k) ∧ (t.endFired = true ↔ s.cfg.t35Ticks ≤ k) ∧
      (t.timRun = true ↔ k < s.cfg.t35Ticks) ∧
      (k < s.cfg.t35Ticks → t.received = s.received) ∧
      (s.cfg.t35Ticks ≤ k → t.rxLen = 0 ∧ t.mailbox = if s.rxLen = 0 then s.mailbox else s.received)

/-- The source's resynchronisation property (V5; R124, R141, R241): after a gap of at least T15_TICKS and less than
T35_TICKS ticks the next byte starts a fresh frame, and what was accumulated is gone. For a gap of T35_TICKS - 1 ticks this
is the model's reading of R141 and V20 against R229 (log 16). -/
def Obligations.GapDiscardsThePartialFrame : Prop :=
  ∀ (s : State) (k : Nat) (b : Byte), s.Inv → s.timRun = true → s.timCount = 0 →
    s.cfg.t15Ticks ≤ k → k < s.cfg.t35Ticks →
    ∃ t, play (silence k ++ [.rxByte b]) s = .next t ∧ t.received = [b] ∧ t.mailbox = s.mailbox

/-- R82, R128, R142, R143: the bytes of a frame sent with gaps below T15_TICKS, then T35_TICKS of silence, are published
as one frame, its first RX_CAP bytes if it is longer, over whatever the mailbox held. -/
def Obligations.FramesAreDelimitedBySilence : Prop :=
  ∀ (s : State) (f : List Byte) (g : Nat), s.Inv → f ≠ [] → g < s.cfg.t15Ticks → s.midFired = true ∨ s.rxLen = 0 →
    ∃ t, play (rxFrame g f ++ silence s.cfg.t35Ticks) s = .next t ∧
      t.mailbox = f.take s.cfg.rxCap ∧ t.mbLen = min f.length s.cfg.rxCap ∧ t.rxLen = 0 ∧ t.faState = .idle ∧
      t.endFired = true ∧ t.store = s.store ∧ t.dispPhase = s.dispPhase ∧ t.heldFrame = s.heldFrame

/-- R146, R148, R149, R151, R179: on a silent bus with the transmitter free, EMIT and one TX_DONE per byte put the held
response on the wire, every byte once and in order, and leave the transmitter idle. -/
def Obligations.ResponseReachesTheWireWhole : Prop :=
  ∀ s : State, s.Inv → s.dispPhase = .holding → s.endFired = true → s.txInflight = false → s.txState ≠ .txActive →
    ∃ t, play (.emit :: List.replicate s.dispOutLen .txDone) s = .next t ∧
      t.outputs = s.outputs ++ s.heldFrame.map .txOut ∧ t.txState = .txIdle ∧ t.txInflight = false ∧
      t.txCur = t.txLen ∧ t.dispPhase = .ready

/-- V20, R229, R141: an end-timeout tick and a byte at the same instant. Tick first: the frame is published and the byte
starts a new one. Byte first: it finds the mid-timeout fired, so the accumulated frame is discarded; that is the model's
reading of R141 and V20 against R229 (log 16). -/
def Obligations.ByteAndEndTimeoutInEitherOrder : Prop :=
  ∀ (s : State) (b : Byte), s.Inv → s.timRun = true → s.timCount + 1 = s.cfg.t35Ticks → 0 < s.rxLen →
    (∃ t, play [.tick, .rxByte b] s = .next t ∧ t.mailbox = s.received ∧ t.received = [b] ∧ t.timCount = 0) ∧
    (∃ t, play [.rxByte b, .tick] s = .next t ∧ t.mailbox = s.mailbox ∧ t.received = [b] ∧ t.timCount = 1)

/-- R154 item 7: a pending frame with a byte in flight arises only from a `write` during a transmission, so from EMIT in
TxActive. -/
def Obligations.PendingInFlightOnlyAfterOverwrite : Prop :=
  ∀ (i : Instr) (s t : State), s.Inv → exec i s = .next t → t.txState = .txPending → t.txInflight = true →
    (s.txState = .txPending ∧ s.txInflight = true) ∨ (i = .emit ∧ s.txState = .txActive)

/-! ### The host and reset -/

/-- R71: HOST_READ returns the element to the host and changes no state; outside the space it has no step. -/
def Obligations.HostReadReturnsTheElement : Prop :=
  ∀ (s : State) (sp : Space) (a : Word),
    (a.toNat < s.cfg.capacity sp →
      exec (.hostRead sp a) s = .next { s with outputs := s.outputs ++ [.hostValue (memRead s.store sp a.toNat)] }) ∧
    (s.cfg.capacity sp ≤ a.toNat → ∀ t, exec (.hostRead sp a) s ≠ .next t)

/-- R70, R53: HOST_WRITE sets the element, in any of the four spaces, and changes no other element and nothing else. -/
def Obligations.HostWriteSetsTheElement : Prop :=
  ∀ (s : State) (a : Word) (v : Item), Memory.wf s.cfg s.store → a.toNat < s.cfg.capacity v.space →
    ∃ m, exec (.hostWrite a v) s = .next { s with store := m } ∧ memRead m v.space a.toNat = v ∧
      ∀ sp x, sp ≠ v.space ∨ x ≠ a.toNat → memRead m sp x = memRead s.store sp x

/-- R52, R53, R69: a read of the Register Store gives the last write to that element, and a write leaves the others and
the canonical form. -/
def Obligations.StoreReadGivesTheLastWrite : Prop :=
  ∀ (c : Config) (m : Store) (a : Nat) (v : Item), Memory.wf c m → a < c.capacity v.space →
    Memory.wf c (memWrite m a v) ∧ memRead (memWrite m a v) v.space a = v ∧
    ∀ sp x, sp ≠ v.space ∨ x ≠ a → memRead (memWrite m a v) sp x = memRead m sp x

/-- R250, R252, R253: RESET under a legal configuration sets every element to its reset value and the store to STORE_INIT,
and samples the configuration. That it keeps the events to come (log 3) and the outputs so far (log 5) is the model's
choice. -/
def Obligations.ResetSetsEveryElement : Prop :=
  ∀ s : State, legalConfig s.cfgPins →
    ∃ t, exec .reset s = .next t ∧
      t.timCount = 0 ∧ t.timRun = true ∧ t.midFired = false ∧ t.endFired = false ∧
      t.faState = .idle ∧ t.rxLen = 0 ∧ t.mbLen = 0 ∧
      t.txLen = 0 ∧ t.txCur = 0 ∧ t.txState = .txIdle ∧ t.txInflight = false ∧
      t.dispPhase = .ready ∧ t.dispOutLen = 0 ∧ t.store = s.cfgPins.storeInit ∧ t.cfg = s.cfgPins ∧
      t.cfgPins = s.cfgPins ∧ t.input = s.input ∧ t.outputs = s.outputs ∧ t.Inv

/-- R22: the values the state table gives for reset, in `State.reset`. -/
def Obligations.ResetStateIsTheTable : Prop :=
  let t := State.reset
  t.timCount = 0 ∧ t.timRun = true ∧ t.midFired = false ∧ t.endFired = false ∧
  t.faState = .idle ∧ t.rxLen = 0 ∧ t.mbLen = 0 ∧
  t.txLen = 0 ∧ t.txCur = 0 ∧ t.txState = .txIdle ∧ t.txInflight = false ∧
  t.dispPhase = .ready ∧ t.dispOutLen = 0 ∧ t.store = t.cfg.storeInit

/-! ### Invariants and rules of the whole machine -/

/-- R154, with R22, R23, R26, R29 and R32: every step from a state that meets the invariants leads to one that does. -/
def Obligations.EveryStepKeepsTheInvariants : Prop :=
  ∀ s t : State, s.Inv → step s = .next t → t.Inv

/-- The invariants hold right after reset. -/
def Obligations.ResetMeetsTheInvariants : Prop := State.reset.Inv

/-- R33, R252: no instruction but RESET changes the configuration in force, RESET samples the inputs, and nothing changes
the inputs. -/
def Obligations.ConfigurationChangesOnlyAtReset : Prop :=
  ∀ (i : Instr) (s t : State), exec i s = .next t →
    t.cfgPins = s.cfgPins ∧ (i ≠ .reset → t.cfg = s.cfg) ∧ (i = .reset → t.cfg = s.cfgPins)

/-- R50, R70: discrete inputs and input registers change only by HOST_WRITE and RESET. -/
def Obligations.InputSpacesChangeOnlyByTheHost : Prop :=
  ∀ (i : Instr) (s t : State), exec i s = .next t → (∀ a v, i ≠ .hostWrite a v) → i ≠ .reset →
    t.store.di = s.store.di ∧ t.store.ir = s.store.ir

/-- R233, R36, R232: what each context never writes. Interrupt events leave the Register Store, the transmit frame and
the dispatcher's state; foreground events leave the timer, the receive side, the mailbox's bytes and the input spaces; host
events leave all but the store and the output record. -/
def Obligations.EachContextWritesOnlyItsOwn : Prop :=
  ∀ (i : Instr) (s t : State), exec i s = .next t →
    ((i = .txDone ∨ i = .tick ∨ ∃ b, i = .rxByte b) →
      t.store = s.store ∧ t.txBuf = s.txBuf ∧ t.txLen = s.txLen ∧ t.dispPhase = s.dispPhase ∧ t.dispOut = s.dispOut ∧
      t.dispOutLen = s.dispOutLen ∧ t.input = s.input) ∧
    ((i = .dispatch ∨ i = .emit) →
      t.timCount = s.timCount ∧ t.timRun = s.timRun ∧ t.midFired = s.midFired ∧ t.endFired = s.endFired ∧
      t.faState = s.faState ∧ t.rxBuf = s.rxBuf ∧ t.rxLen = s.rxLen ∧ t.mbBuf = s.mbBuf ∧
      t.store.di = s.store.di ∧ t.store.ir = s.store.ir ∧ t.input = s.input) ∧
    ((∃ sp a, i = .hostRead sp a) ∨ (∃ a v, i = .hostWrite a v) →
      t = { s with store := t.store, outputs := t.outputs })

/-- R173, R240: the diagnostic hook has no effect. Two states that differ only in HAS_DIAG take the same event to states
that differ only in HAS_DIAG and in DIAG outputs. -/
def Obligations.DiagnosticHookHasNoEffect : Prop :=
  ∀ (e : Event) (s t : State) (h : Bool), e ≠ .reset → exec e.instr s = .next t →
    ∃ u, exec e.instr { s with cfg := { s.cfg with hasDiag := h } } = .next u ∧
      u = { t with cfg := { t.cfg with hasDiag := h }, outputs := u.outputs } ∧
      u.outputs.filter (fun o => o matches .txOut _ | .hostValue _) =
        t.outputs.filter (fun o => o matches .txOut _ | .hostValue _)

/-- R264: only TICK changes a quiescent state without new input, and it changes only the timer elements; DISPATCH leaves
it, and EMIT and TX_DONE have no step. -/
def Obligations.QuiescentStateOnlyTicks : Prop :=
  ∀ s : State, s.Inv → s.Quiescent →
    exec .dispatch s = .next s ∧ (∀ t, exec .emit s ≠ .next t) ∧ (∀ t, exec .txDone s ≠ .next t) ∧
    ∃ count run mid fin, exec .tick s =
      .next { s with timCount := count, timRun := run, midFired := mid, endFired := fin }

/-! ### Before the first RESET, and the configuration -/

/-- R254: before the first RESET no other event has a step; RESET then has one under a legal configuration, into the state
right after reset; and once a RESET has been taken no instruction undoes that. The fault's name is the model's choice
(log 15), and so is that RESET keeps the events to come and the outputs (logs 3 and 5) and leaves zeros in the four
buffers, whose contents R22 and R250 call unspecified (log 6; `State.afterReset` holds them). -/
def Obligations.OnlyResetStepsBeforeTheFirstReset : Prop :=
  (∀ (s : State) (e : Event) (rest : List Event), s.hasReset = false → s.input = e :: rest →
    (e ≠ .reset → step s = .fault .eventBeforeReset) ∧
    (e = .reset → legalConfig s.cfgPins →
      step s = .next { State.afterReset s.cfgPins with input := rest, outputs := s.outputs })) ∧
  ∀ (i : Instr) (s t : State), exec i s = .next t → (t.hasReset = true ↔ s.hasReset = true ∨ i = .reset)

/-- R121: a legal configuration has `1 <= T15_TICKS < T35_TICKS`; the default thresholds are the least whole numbers not
below 3/2 and 7/2 of CHAR_TICKS. R9: from CHAR_TICKS = 1 on, its defaults with an initial store in canonical form are
legal; the condition on the initial store is the model's own (log 14, with log 12's form). -/
def Obligations.DefaultThresholdsAreRoundedUp : Prop :=
  (∀ c : Config, legalConfig c = true → 1 ≤ c.t15Ticks ∧ c.t15Ticks < c.t35Ticks) ∧
  ∀ (a : Byte) (k : Nat) (m : Store) (d : Bool) (c : Config), c = Config.ofDefaults a k m d →
    (∀ n, 3 * k ≤ 2 * n ↔ c.t15Ticks ≤ n) ∧ (∀ n, 7 * k ≤ 2 * n ↔ c.t35Ticks ≤ n) ∧
    (1 ≤ k → Memory.wf c m → legalConfig c = true)
end

