-- ==== Sys2Proof/Laws/State.lean ====
section
/-! SUPPORT. One lemma per field and update of State, so that no later proof unfolds a record update. -/

namespace Sys2Proof.Machine

/-! ### `restartTimer` -/

@[simp] theorem restartTimer_timCount (s : State) : (restartTimer s).timCount = 0 := rfl
@[simp] theorem restartTimer_timRun (s : State) : (restartTimer s).timRun = true := rfl
@[simp] theorem restartTimer_midFired (s : State) : (restartTimer s).midFired = false := rfl
@[simp] theorem restartTimer_endFired (s : State) : (restartTimer s).endFired = false := rfl
@[simp] theorem restartTimer_faState (s : State) : (restartTimer s).faState = s.faState := rfl
@[simp] theorem restartTimer_rxBuf (s : State) : (restartTimer s).rxBuf = s.rxBuf := rfl
@[simp] theorem restartTimer_rxLen (s : State) : (restartTimer s).rxLen = s.rxLen := rfl
@[simp] theorem restartTimer_mbBuf (s : State) : (restartTimer s).mbBuf = s.mbBuf := rfl
@[simp] theorem restartTimer_mbLen (s : State) : (restartTimer s).mbLen = s.mbLen := rfl
@[simp] theorem restartTimer_txBuf (s : State) : (restartTimer s).txBuf = s.txBuf := rfl
@[simp] theorem restartTimer_txLen (s : State) : (restartTimer s).txLen = s.txLen := rfl
@[simp] theorem restartTimer_txCur (s : State) : (restartTimer s).txCur = s.txCur := rfl
@[simp] theorem restartTimer_txState (s : State) : (restartTimer s).txState = s.txState := rfl
@[simp] theorem restartTimer_txInflight (s : State) : (restartTimer s).txInflight = s.txInflight := rfl
@[simp] theorem restartTimer_dispPhase (s : State) : (restartTimer s).dispPhase = s.dispPhase := rfl
@[simp] theorem restartTimer_dispOut (s : State) : (restartTimer s).dispOut = s.dispOut := rfl
@[simp] theorem restartTimer_dispOutLen (s : State) : (restartTimer s).dispOutLen = s.dispOutLen := rfl
@[simp] theorem restartTimer_store (s : State) : (restartTimer s).store = s.store := rfl
@[simp] theorem restartTimer_cfg (s : State) : (restartTimer s).cfg = s.cfg := rfl
@[simp] theorem restartTimer_cfgPins (s : State) : (restartTimer s).cfgPins = s.cfgPins := rfl
@[simp] theorem restartTimer_hasReset (s : State) : (restartTimer s).hasReset = s.hasReset := rfl
@[simp] theorem restartTimer_input (s : State) : (restartTimer s).input = s.input := rfl
@[simp] theorem restartTimer_outputs (s : State) : (restartTimer s).outputs = s.outputs := rfl

/-! ### `countTick` -/

@[simp] theorem countTick_timCount (s : State) : (countTick s).timCount = s.timCount + 1 := rfl
@[simp] theorem countTick_timRun (s : State) : (countTick s).timRun = s.timRun := rfl
@[simp] theorem countTick_midFired (s : State) : (countTick s).midFired = s.midFired := rfl
@[simp] theorem countTick_endFired (s : State) : (countTick s).endFired = s.endFired := rfl
@[simp] theorem countTick_faState (s : State) : (countTick s).faState = s.faState := rfl
@[simp] theorem countTick_rxBuf (s : State) : (countTick s).rxBuf = s.rxBuf := rfl
@[simp] theorem countTick_rxLen (s : State) : (countTick s).rxLen = s.rxLen := rfl
@[simp] theorem countTick_mbBuf (s : State) : (countTick s).mbBuf = s.mbBuf := rfl
@[simp] theorem countTick_mbLen (s : State) : (countTick s).mbLen = s.mbLen := rfl
@[simp] theorem countTick_txBuf (s : State) : (countTick s).txBuf = s.txBuf := rfl
@[simp] theorem countTick_txLen (s : State) : (countTick s).txLen = s.txLen := rfl
@[simp] theorem countTick_txCur (s : State) : (countTick s).txCur = s.txCur := rfl
@[simp] theorem countTick_txState (s : State) : (countTick s).txState = s.txState := rfl
@[simp] theorem countTick_txInflight (s : State) : (countTick s).txInflight = s.txInflight := rfl
@[simp] theorem countTick_dispPhase (s : State) : (countTick s).dispPhase = s.dispPhase := rfl
@[simp] theorem countTick_dispOut (s : State) : (countTick s).dispOut = s.dispOut := rfl
@[simp] theorem countTick_dispOutLen (s : State) : (countTick s).dispOutLen = s.dispOutLen := rfl
@[simp] theorem countTick_store (s : State) : (countTick s).store = s.store := rfl
@[simp] theorem countTick_cfg (s : State) : (countTick s).cfg = s.cfg := rfl
@[simp] theorem countTick_cfgPins (s : State) : (countTick s).cfgPins = s.cfgPins := rfl
@[simp] theorem countTick_hasReset (s : State) : (countTick s).hasReset = s.hasReset := rfl
@[simp] theorem countTick_input (s : State) : (countTick s).input = s.input := rfl
@[simp] theorem countTick_outputs (s : State) : (countTick s).outputs = s.outputs := rfl

/-! ### `fireMid` -/

@[simp] theorem fireMid_timCount (s : State) : (fireMid s).timCount = s.timCount := rfl
@[simp] theorem fireMid_timRun (s : State) : (fireMid s).timRun = s.timRun := rfl
@[simp] theorem fireMid_midFired (s : State) : (fireMid s).midFired = true := rfl
@[simp] theorem fireMid_endFired (s : State) : (fireMid s).endFired = s.endFired := rfl
@[simp] theorem fireMid_faState (s : State) : (fireMid s).faState = s.faState := rfl
@[simp] theorem fireMid_rxBuf (s : State) : (fireMid s).rxBuf = s.rxBuf := rfl
@[simp] theorem fireMid_rxLen (s : State) : (fireMid s).rxLen = s.rxLen := rfl
@[simp] theorem fireMid_mbBuf (s : State) : (fireMid s).mbBuf = s.mbBuf := rfl
@[simp] theorem fireMid_mbLen (s : State) : (fireMid s).mbLen = s.mbLen := rfl
@[simp] theorem fireMid_txBuf (s : State) : (fireMid s).txBuf = s.txBuf := rfl
@[simp] theorem fireMid_txLen (s : State) : (fireMid s).txLen = s.txLen := rfl
@[simp] theorem fireMid_txCur (s : State) : (fireMid s).txCur = s.txCur := rfl
@[simp] theorem fireMid_txState (s : State) : (fireMid s).txState = s.txState := rfl
@[simp] theorem fireMid_txInflight (s : State) : (fireMid s).txInflight = s.txInflight := rfl
@[simp] theorem fireMid_dispPhase (s : State) : (fireMid s).dispPhase = s.dispPhase := rfl
@[simp] theorem fireMid_dispOut (s : State) : (fireMid s).dispOut = s.dispOut := rfl
@[simp] theorem fireMid_dispOutLen (s : State) : (fireMid s).dispOutLen = s.dispOutLen := rfl
@[simp] theorem fireMid_store (s : State) : (fireMid s).store = s.store := rfl
@[simp] theorem fireMid_cfg (s : State) : (fireMid s).cfg = s.cfg := rfl
@[simp] theorem fireMid_cfgPins (s : State) : (fireMid s).cfgPins = s.cfgPins := rfl
@[simp] theorem fireMid_hasReset (s : State) : (fireMid s).hasReset = s.hasReset := rfl
@[simp] theorem fireMid_input (s : State) : (fireMid s).input = s.input := rfl
@[simp] theorem fireMid_outputs (s : State) : (fireMid s).outputs = s.outputs := rfl

/-! ### `fireEnd` -/

@[simp] theorem fireEnd_timCount (s : State) : (fireEnd s).timCount = s.timCount := rfl
@[simp] theorem fireEnd_timRun (s : State) : (fireEnd s).timRun = false := rfl
@[simp] theorem fireEnd_midFired (s : State) : (fireEnd s).midFired = s.midFired := rfl
@[simp] theorem fireEnd_endFired (s : State) : (fireEnd s).endFired = true := rfl
@[simp] theorem fireEnd_faState (s : State) : (fireEnd s).faState = s.faState := rfl
@[simp] theorem fireEnd_rxBuf (s : State) : (fireEnd s).rxBuf = s.rxBuf := rfl
@[simp] theorem fireEnd_rxLen (s : State) : (fireEnd s).rxLen = s.rxLen := rfl
@[simp] theorem fireEnd_mbBuf (s : State) : (fireEnd s).mbBuf = s.mbBuf := rfl
@[simp] theorem fireEnd_mbLen (s : State) : (fireEnd s).mbLen = s.mbLen := rfl
@[simp] theorem fireEnd_txBuf (s : State) : (fireEnd s).txBuf = s.txBuf := rfl
@[simp] theorem fireEnd_txLen (s : State) : (fireEnd s).txLen = s.txLen := rfl
@[simp] theorem fireEnd_txCur (s : State) : (fireEnd s).txCur = s.txCur := rfl
@[simp] theorem fireEnd_txState (s : State) : (fireEnd s).txState = s.txState := rfl
@[simp] theorem fireEnd_txInflight (s : State) : (fireEnd s).txInflight = s.txInflight := rfl
@[simp] theorem fireEnd_dispPhase (s : State) : (fireEnd s).dispPhase = s.dispPhase := rfl
@[simp] theorem fireEnd_dispOut (s : State) : (fireEnd s).dispOut = s.dispOut := rfl
@[simp] theorem fireEnd_dispOutLen (s : State) : (fireEnd s).dispOutLen = s.dispOutLen := rfl
@[simp] theorem fireEnd_store (s : State) : (fireEnd s).store = s.store := rfl
@[simp] theorem fireEnd_cfg (s : State) : (fireEnd s).cfg = s.cfg := rfl
@[simp] theorem fireEnd_cfgPins (s : State) : (fireEnd s).cfgPins = s.cfgPins := rfl
@[simp] theorem fireEnd_hasReset (s : State) : (fireEnd s).hasReset = s.hasReset := rfl
@[simp] theorem fireEnd_input (s : State) : (fireEnd s).input = s.input := rfl
@[simp] theorem fireEnd_outputs (s : State) : (fireEnd s).outputs = s.outputs := rfl

/-! ### `emitted` -/

@[simp] theorem emitted_timCount (o : Output) (s : State) : (s.emitted o).timCount = s.timCount := rfl
@[simp] theorem emitted_timRun (o : Output) (s : State) : (s.emitted o).timRun = s.timRun := rfl
@[simp] theorem emitted_midFired (o : Output) (s : State) : (s.emitted o).midFired = s.midFired := rfl
@[simp] theorem emitted_endFired (o : Output) (s : State) : (s.emitted o).endFired = s.endFired := rfl
@[simp] theorem emitted_faState (o : Output) (s : State) : (s.emitted o).faState = s.faState := rfl
@[simp] theorem emitted_rxBuf (o : Output) (s : State) : (s.emitted o).rxBuf = s.rxBuf := rfl
@[simp] theorem emitted_rxLen (o : Output) (s : State) : (s.emitted o).rxLen = s.rxLen := rfl
@[simp] theorem emitted_mbBuf (o : Output) (s : State) : (s.emitted o).mbBuf = s.mbBuf := rfl
@[simp] theorem emitted_mbLen (o : Output) (s : State) : (s.emitted o).mbLen = s.mbLen := rfl
@[simp] theorem emitted_txBuf (o : Output) (s : State) : (s.emitted o).txBuf = s.txBuf := rfl
@[simp] theorem emitted_txLen (o : Output) (s : State) : (s.emitted o).txLen = s.txLen := rfl
@[simp] theorem emitted_txCur (o : Output) (s : State) : (s.emitted o).txCur = s.txCur := rfl
@[simp] theorem emitted_txState (o : Output) (s : State) : (s.emitted o).txState = s.txState := rfl
@[simp] theorem emitted_txInflight (o : Output) (s : State) : (s.emitted o).txInflight = s.txInflight := rfl
@[simp] theorem emitted_dispPhase (o : Output) (s : State) : (s.emitted o).dispPhase = s.dispPhase := rfl
@[simp] theorem emitted_dispOut (o : Output) (s : State) : (s.emitted o).dispOut = s.dispOut := rfl
@[simp] theorem emitted_dispOutLen (o : Output) (s : State) : (s.emitted o).dispOutLen = s.dispOutLen := rfl
@[simp] theorem emitted_store (o : Output) (s : State) : (s.emitted o).store = s.store := rfl
@[simp] theorem emitted_cfg (o : Output) (s : State) : (s.emitted o).cfg = s.cfg := rfl
@[simp] theorem emitted_cfgPins (o : Output) (s : State) : (s.emitted o).cfgPins = s.cfgPins := rfl
@[simp] theorem emitted_hasReset (o : Output) (s : State) : (s.emitted o).hasReset = s.hasReset := rfl
@[simp] theorem emitted_input (o : Output) (s : State) : (s.emitted o).input = s.input := rfl
@[simp] theorem emitted_outputs (o : Output) (s : State) : (s.emitted o).outputs = s.outputs ++ [o] := rfl

/-! ### `holdFrame` -/

@[simp] theorem holdFrame_timCount (f : List Byte) (s : State) : (holdFrame f s).timCount = s.timCount := rfl
@[simp] theorem holdFrame_timRun (f : List Byte) (s : State) : (holdFrame f s).timRun = s.timRun := rfl
@[simp] theorem holdFrame_midFired (f : List Byte) (s : State) : (holdFrame f s).midFired = s.midFired := rfl
@[simp] theorem holdFrame_endFired (f : List Byte) (s : State) : (holdFrame f s).endFired = s.endFired := rfl
@[simp] theorem holdFrame_faState (f : List Byte) (s : State) : (holdFrame f s).faState = s.faState := rfl
@[simp] theorem holdFrame_rxBuf (f : List Byte) (s : State) : (holdFrame f s).rxBuf = s.rxBuf := rfl
@[simp] theorem holdFrame_rxLen (f : List Byte) (s : State) : (holdFrame f s).rxLen = s.rxLen := rfl
@[simp] theorem holdFrame_mbBuf (f : List Byte) (s : State) : (holdFrame f s).mbBuf = s.mbBuf := rfl
@[simp] theorem holdFrame_mbLen (f : List Byte) (s : State) : (holdFrame f s).mbLen = s.mbLen := rfl
@[simp] theorem holdFrame_txBuf (f : List Byte) (s : State) : (holdFrame f s).txBuf = s.txBuf := rfl
@[simp] theorem holdFrame_txLen (f : List Byte) (s : State) : (holdFrame f s).txLen = s.txLen := rfl
@[simp] theorem holdFrame_txCur (f : List Byte) (s : State) : (holdFrame f s).txCur = s.txCur := rfl
@[simp] theorem holdFrame_txState (f : List Byte) (s : State) : (holdFrame f s).txState = s.txState := rfl
@[simp] theorem holdFrame_txInflight (f : List Byte) (s : State) : (holdFrame f s).txInflight = s.txInflight := rfl
@[simp] theorem holdFrame_dispPhase (f : List Byte) (s : State) : (holdFrame f s).dispPhase = .holding := rfl
@[simp] theorem holdFrame_dispOut (f : List Byte) (s : State) : (holdFrame f s).dispOut = overlay f s.dispOut := rfl
@[simp] theorem holdFrame_dispOutLen (f : List Byte) (s : State) : (holdFrame f s).dispOutLen = f.length := rfl
@[simp] theorem holdFrame_store (f : List Byte) (s : State) : (holdFrame f s).store = s.store := rfl
@[simp] theorem holdFrame_cfg (f : List Byte) (s : State) : (holdFrame f s).cfg = s.cfg := rfl
@[simp] theorem holdFrame_cfgPins (f : List Byte) (s : State) : (holdFrame f s).cfgPins = s.cfgPins := rfl
@[simp] theorem holdFrame_hasReset (f : List Byte) (s : State) : (holdFrame f s).hasReset = s.hasReset := rfl
@[simp] theorem holdFrame_input (f : List Byte) (s : State) : (holdFrame f s).input = s.input := rfl
@[simp] theorem holdFrame_outputs (f : List Byte) (s : State) : (holdFrame f s).outputs = s.outputs := rfl

/-! ### `txArm` -/

@[simp] theorem txArm_timCount (s : State) : (txArm s).timCount = s.timCount := rfl
@[simp] theorem txArm_timRun (s : State) : (txArm s).timRun = s.timRun := rfl
@[simp] theorem txArm_midFired (s : State) : (txArm s).midFired = s.midFired := rfl
@[simp] theorem txArm_endFired (s : State) : (txArm s).endFired = s.endFired := rfl
@[simp] theorem txArm_faState (s : State) : (txArm s).faState = s.faState := rfl
@[simp] theorem txArm_rxBuf (s : State) : (txArm s).rxBuf = s.rxBuf := rfl
@[simp] theorem txArm_rxLen (s : State) : (txArm s).rxLen = s.rxLen := rfl
@[simp] theorem txArm_mbBuf (s : State) : (txArm s).mbBuf = s.mbBuf := rfl
@[simp] theorem txArm_mbLen (s : State) : (txArm s).mbLen = s.mbLen := rfl
@[simp] theorem txArm_txBuf (s : State) : (txArm s).txBuf = s.txBuf := rfl
@[simp] theorem txArm_txLen (s : State) : (txArm s).txLen = s.txLen := rfl
@[simp] theorem txArm_txCur (s : State) : (txArm s).txCur = 0 := rfl
@[simp] theorem txArm_txState (s : State) : (txArm s).txState = .txActive := rfl
@[simp] theorem txArm_txInflight (s : State) : (txArm s).txInflight = true := rfl
@[simp] theorem txArm_dispPhase (s : State) : (txArm s).dispPhase = s.dispPhase := rfl
@[simp] theorem txArm_dispOut (s : State) : (txArm s).dispOut = s.dispOut := rfl
@[simp] theorem txArm_dispOutLen (s : State) : (txArm s).dispOutLen = s.dispOutLen := rfl
@[simp] theorem txArm_store (s : State) : (txArm s).store = s.store := rfl
@[simp] theorem txArm_cfg (s : State) : (txArm s).cfg = s.cfg := rfl
@[simp] theorem txArm_cfgPins (s : State) : (txArm s).cfgPins = s.cfgPins := rfl
@[simp] theorem txArm_hasReset (s : State) : (txArm s).hasReset = s.hasReset := rfl
@[simp] theorem txArm_input (s : State) : (txArm s).input = s.input := rfl
@[simp] theorem txArm_outputs (s : State) : (txArm s).outputs = s.outputs ++ [.txOut (s.txBuf.getD 0 0)] := rfl

/-! ### `fillTx` -/

@[simp] theorem fillTx_timCount (f : List Byte) (s : State) : (fillTx f s).timCount = s.timCount := rfl
@[simp] theorem fillTx_timRun (f : List Byte) (s : State) : (fillTx f s).timRun = s.timRun := rfl
@[simp] theorem fillTx_midFired (f : List Byte) (s : State) : (fillTx f s).midFired = s.midFired := rfl
@[simp] theorem fillTx_endFired (f : List Byte) (s : State) : (fillTx f s).endFired = s.endFired := rfl
@[simp] theorem fillTx_faState (f : List Byte) (s : State) : (fillTx f s).faState = s.faState := rfl
@[simp] theorem fillTx_rxBuf (f : List Byte) (s : State) : (fillTx f s).rxBuf = s.rxBuf := rfl
@[simp] theorem fillTx_rxLen (f : List Byte) (s : State) : (fillTx f s).rxLen = s.rxLen := rfl
@[simp] theorem fillTx_mbBuf (f : List Byte) (s : State) : (fillTx f s).mbBuf = s.mbBuf := rfl
@[simp] theorem fillTx_mbLen (f : List Byte) (s : State) : (fillTx f s).mbLen = s.mbLen := rfl
@[simp] theorem fillTx_txBuf (f : List Byte) (s : State) : (fillTx f s).txBuf = overlay (f.take s.cfg.txCap) s.txBuf := rfl
@[simp] theorem fillTx_txLen (f : List Byte) (s : State) : (fillTx f s).txLen = (f.take s.cfg.txCap).length := rfl
@[simp] theorem fillTx_txCur (f : List Byte) (s : State) : (fillTx f s).txCur = 0 := rfl
@[simp] theorem fillTx_txState (f : List Byte) (s : State) : (fillTx f s).txState = s.txState := rfl
@[simp] theorem fillTx_txInflight (f : List Byte) (s : State) : (fillTx f s).txInflight = s.txInflight := rfl
@[simp] theorem fillTx_dispPhase (f : List Byte) (s : State) : (fillTx f s).dispPhase = s.dispPhase := rfl
@[simp] theorem fillTx_dispOut (f : List Byte) (s : State) : (fillTx f s).dispOut = s.dispOut := rfl
@[simp] theorem fillTx_dispOutLen (f : List Byte) (s : State) : (fillTx f s).dispOutLen = s.dispOutLen := rfl
@[simp] theorem fillTx_store (f : List Byte) (s : State) : (fillTx f s).store = s.store := rfl
@[simp] theorem fillTx_cfg (f : List Byte) (s : State) : (fillTx f s).cfg = s.cfg := rfl
@[simp] theorem fillTx_cfgPins (f : List Byte) (s : State) : (fillTx f s).cfgPins = s.cfgPins := rfl
@[simp] theorem fillTx_hasReset (f : List Byte) (s : State) : (fillTx f s).hasReset = s.hasReset := rfl
@[simp] theorem fillTx_input (f : List Byte) (s : State) : (fillTx f s).input = s.input := rfl
@[simp] theorem fillTx_outputs (f : List Byte) (s : State) : (fillTx f s).outputs = s.outputs := rfl

/-! ### The fields a conditional operation never writes -/

@[simp] theorem discardStale_timCount (s : State) : (discardStale s).timCount = s.timCount := by unfold discardStale; split <;> rfl
@[simp] theorem discardStale_timRun (s : State) : (discardStale s).timRun = s.timRun := by unfold discardStale; split <;> rfl
@[simp] theorem discardStale_midFired (s : State) : (discardStale s).midFired = s.midFired := by unfold discardStale; split <;> rfl
@[simp] theorem discardStale_endFired (s : State) : (discardStale s).endFired = s.endFired := by unfold discardStale; split <;> rfl
@[simp] theorem discardStale_faState (s : State) : (discardStale s).faState = s.faState := by unfold discardStale; split <;> rfl
@[simp] theorem discardStale_rxBuf (s : State) : (discardStale s).rxBuf = s.rxBuf := by unfold discardStale; split <;> rfl
@[simp] theorem discardStale_mbBuf (s : State) : (discardStale s).mbBuf = s.mbBuf := by unfold discardStale; split <;> rfl
@[simp] theorem discardStale_mbLen (s : State) : (discardStale s).mbLen = s.mbLen := by unfold discardStale; split <;> rfl
@[simp] theorem discardStale_txBuf (s : State) : (discardStale s).txBuf = s.txBuf := by unfold discardStale; split <;> rfl
@[simp] theorem discardStale_txLen (s : State) : (discardStale s).txLen = s.txLen := by unfold discardStale; split <;> rfl
@[simp] theorem discardStale_txCur (s : State) : (discardStale s).txCur = s.txCur := by unfold discardStale; split <;> rfl
@[simp] theorem discardStale_txState (s : State) : (discardStale s).txState = s.txState := by unfold discardStale; split <;> rfl
@[simp] theorem discardStale_txInflight (s : State) : (discardStale s).txInflight = s.txInflight := by unfold discardStale; split <;> rfl
@[simp] theorem discardStale_dispPhase (s : State) : (discardStale s).dispPhase = s.dispPhase := by unfold discardStale; split <;> rfl
@[simp] theorem discardStale_dispOut (s : State) : (discardStale s).dispOut = s.dispOut := by unfold discardStale; split <;> rfl
@[simp] theorem discardStale_dispOutLen (s : State) : (discardStale s).dispOutLen = s.dispOutLen := by unfold discardStale; split <;> rfl
@[simp] theorem discardStale_store (s : State) : (discardStale s).store = s.store := by unfold discardStale; split <;> rfl
@[simp] theorem discardStale_cfg (s : State) : (discardStale s).cfg = s.cfg := by unfold discardStale; split <;> rfl
@[simp] theorem discardStale_cfgPins (s : State) : (discardStale s).cfgPins = s.cfgPins := by unfold discardStale; split <;> rfl
@[simp] theorem discardStale_hasReset (s : State) : (discardStale s).hasReset = s.hasReset := by unfold discardStale; split <;> rfl
@[simp] theorem discardStale_input (s : State) : (discardStale s).input = s.input := by unfold discardStale; split <;> rfl
@[simp] theorem discardStale_outputs (s : State) : (discardStale s).outputs = s.outputs := by unfold discardStale; split <;> rfl

@[simp] theorem accumulate_timCount (b : Byte) (s : State) : (accumulate b s).timCount = s.timCount := by unfold accumulate; split <;> rfl
@[simp] theorem accumulate_timRun (b : Byte) (s : State) : (accumulate b s).timRun = s.timRun := by unfold accumulate; split <;> rfl
@[simp] theorem accumulate_midFired (b : Byte) (s : State) : (accumulate b s).midFired = s.midFired := by unfold accumulate; split <;> rfl
@[simp] theorem accumulate_endFired (b : Byte) (s : State) : (accumulate b s).endFired = s.endFired := by unfold accumulate; split <;> rfl
@[simp] theorem accumulate_faState (b : Byte) (s : State) : (accumulate b s).faState = s.faState := by unfold accumulate; split <;> rfl
@[simp] theorem accumulate_mbBuf (b : Byte) (s : State) : (accumulate b s).mbBuf = s.mbBuf := by unfold accumulate; split <;> rfl
@[simp] theorem accumulate_mbLen (b : Byte) (s : State) : (accumulate b s).mbLen = s.mbLen := by unfold accumulate; split <;> rfl
@[simp] theorem accumulate_txBuf (b : Byte) (s : State) : (accumulate b s).txBuf = s.txBuf := by unfold accumulate; split <;> rfl
@[simp] theorem accumulate_txLen (b : Byte) (s : State) : (accumulate b s).txLen = s.txLen := by unfold accumulate; split <;> rfl
@[simp] theorem accumulate_txCur (b : Byte) (s : State) : (accumulate b s).txCur = s.txCur := by unfold accumulate; split <;> rfl
@[simp] theorem accumulate_txState (b : Byte) (s : State) : (accumulate b s).txState = s.txState := by unfold accumulate; split <;> rfl
@[simp] theorem accumulate_txInflight (b : Byte) (s : State) : (accumulate b s).txInflight = s.txInflight := by unfold accumulate; split <;> rfl
@[simp] theorem accumulate_dispPhase (b : Byte) (s : State) : (accumulate b s).dispPhase = s.dispPhase := by unfold accumulate; split <;> rfl
@[simp] theorem accumulate_dispOut (b : Byte) (s : State) : (accumulate b s).dispOut = s.dispOut := by unfold accumulate; split <;> rfl
@[simp] theorem accumulate_dispOutLen (b : Byte) (s : State) : (accumulate b s).dispOutLen = s.dispOutLen := by unfold accumulate; split <;> rfl
@[simp] theorem accumulate_store (b : Byte) (s : State) : (accumulate b s).store = s.store := by unfold accumulate; split <;> rfl
@[simp] theorem accumulate_cfg (b : Byte) (s : State) : (accumulate b s).cfg = s.cfg := by unfold accumulate; split <;> rfl
@[simp] theorem accumulate_cfgPins (b : Byte) (s : State) : (accumulate b s).cfgPins = s.cfgPins := by unfold accumulate; split <;> rfl
@[simp] theorem accumulate_hasReset (b : Byte) (s : State) : (accumulate b s).hasReset = s.hasReset := by unfold accumulate; split <;> rfl
@[simp] theorem accumulate_input (b : Byte) (s : State) : (accumulate b s).input = s.input := by unfold accumulate; split <;> rfl
@[simp] theorem accumulate_outputs (b : Byte) (s : State) : (accumulate b s).outputs = s.outputs := by unfold accumulate; split <;> rfl

@[simp] theorem endOfFrame_timCount (s : State) : (endOfFrame s).timCount = s.timCount := by unfold endOfFrame; split <;> rfl
@[simp] theorem endOfFrame_timRun (s : State) : (endOfFrame s).timRun = s.timRun := by unfold endOfFrame; split <;> rfl
@[simp] theorem endOfFrame_midFired (s : State) : (endOfFrame s).midFired = s.midFired := by unfold endOfFrame; split <;> rfl
@[simp] theorem endOfFrame_endFired (s : State) : (endOfFrame s).endFired = s.endFired := by unfold endOfFrame; split <;> rfl
@[simp] theorem endOfFrame_rxBuf (s : State) : (endOfFrame s).rxBuf = s.rxBuf := by unfold endOfFrame; split <;> rfl
@[simp] theorem endOfFrame_txBuf (s : State) : (endOfFrame s).txBuf = s.txBuf := by unfold endOfFrame; split <;> rfl
@[simp] theorem endOfFrame_txLen (s : State) : (endOfFrame s).txLen = s.txLen := by unfold endOfFrame; split <;> rfl
@[simp] theorem endOfFrame_txCur (s : State) : (endOfFrame s).txCur = s.txCur := by unfold endOfFrame; split <;> rfl
@[simp] theorem endOfFrame_txState (s : State) : (endOfFrame s).txState = s.txState := by unfold endOfFrame; split <;> rfl
@[simp] theorem endOfFrame_txInflight (s : State) : (endOfFrame s).txInflight = s.txInflight := by unfold endOfFrame; split <;> rfl
@[simp] theorem endOfFrame_dispPhase (s : State) : (endOfFrame s).dispPhase = s.dispPhase := by unfold endOfFrame; split <;> rfl
@[simp] theorem endOfFrame_dispOut (s : State) : (endOfFrame s).dispOut = s.dispOut := by unfold endOfFrame; split <;> rfl
@[simp] theorem endOfFrame_dispOutLen (s : State) : (endOfFrame s).dispOutLen = s.dispOutLen := by unfold endOfFrame; split <;> rfl
@[simp] theorem endOfFrame_store (s : State) : (endOfFrame s).store = s.store := by unfold endOfFrame; split <;> rfl
@[simp] theorem endOfFrame_cfg (s : State) : (endOfFrame s).cfg = s.cfg := by unfold endOfFrame; split <;> rfl
@[simp] theorem endOfFrame_cfgPins (s : State) : (endOfFrame s).cfgPins = s.cfgPins := by unfold endOfFrame; split <;> rfl
@[simp] theorem endOfFrame_hasReset (s : State) : (endOfFrame s).hasReset = s.hasReset := by unfold endOfFrame; split <;> rfl
@[simp] theorem endOfFrame_input (s : State) : (endOfFrame s).input = s.input := by unfold endOfFrame; split <;> rfl
@[simp] theorem endOfFrame_outputs (s : State) : (endOfFrame s).outputs = s.outputs := by unfold endOfFrame; split <;> rfl

@[simp] theorem txEndTimeoutGate_timCount (s : State) : (txEndTimeoutGate s).timCount = s.timCount := by unfold txEndTimeoutGate; split <;> rfl
@[simp] theorem txEndTimeoutGate_timRun (s : State) : (txEndTimeoutGate s).timRun = s.timRun := by unfold txEndTimeoutGate; split <;> rfl
@[simp] theorem txEndTimeoutGate_midFired (s : State) : (txEndTimeoutGate s).midFired = s.midFired := by unfold txEndTimeoutGate; split <;> rfl
@[simp] theorem txEndTimeoutGate_endFired (s : State) : (txEndTimeoutGate s).endFired = s.endFired := by unfold txEndTimeoutGate; split <;> rfl
@[simp] theorem txEndTimeoutGate_faState (s : State) : (txEndTimeoutGate s).faState = s.faState := by unfold txEndTimeoutGate; split <;> rfl
@[simp] theorem txEndTimeoutGate_rxBuf (s : State) : (txEndTimeoutGate s).rxBuf = s.rxBuf := by unfold txEndTimeoutGate; split <;> rfl
@[simp] theorem txEndTimeoutGate_rxLen (s : State) : (txEndTimeoutGate s).rxLen = s.rxLen := by unfold txEndTimeoutGate; split <;> rfl
@[simp] theorem txEndTimeoutGate_mbBuf (s : State) : (txEndTimeoutGate s).mbBuf = s.mbBuf := by unfold txEndTimeoutGate; split <;> rfl
@[simp] theorem txEndTimeoutGate_mbLen (s : State) : (txEndTimeoutGate s).mbLen = s.mbLen := by unfold txEndTimeoutGate; split <;> rfl
@[simp] theorem txEndTimeoutGate_txBuf (s : State) : (txEndTimeoutGate s).txBuf = s.txBuf := by unfold txEndTimeoutGate; split <;> rfl
@[simp] theorem txEndTimeoutGate_txLen (s : State) : (txEndTimeoutGate s).txLen = s.txLen := by unfold txEndTimeoutGate; split <;> rfl
@[simp] theorem txEndTimeoutGate_dispPhase (s : State) : (txEndTimeoutGate s).dispPhase = s.dispPhase := by unfold txEndTimeoutGate; split <;> rfl
@[simp] theorem txEndTimeoutGate_dispOut (s : State) : (txEndTimeoutGate s).dispOut = s.dispOut := by unfold txEndTimeoutGate; split <;> rfl
@[simp] theorem txEndTimeoutGate_dispOutLen (s : State) : (txEndTimeoutGate s).dispOutLen = s.dispOutLen := by unfold txEndTimeoutGate; split <;> rfl
@[simp] theorem txEndTimeoutGate_store (s : State) : (txEndTimeoutGate s).store = s.store := by unfold txEndTimeoutGate; split <;> rfl
@[simp] theorem txEndTimeoutGate_cfg (s : State) : (txEndTimeoutGate s).cfg = s.cfg := by unfold txEndTimeoutGate; split <;> rfl
@[simp] theorem txEndTimeoutGate_cfgPins (s : State) : (txEndTimeoutGate s).cfgPins = s.cfgPins := by unfold txEndTimeoutGate; split <;> rfl
@[simp] theorem txEndTimeoutGate_hasReset (s : State) : (txEndTimeoutGate s).hasReset = s.hasReset := by unfold txEndTimeoutGate; split <;> rfl
@[simp] theorem txEndTimeoutGate_input (s : State) : (txEndTimeoutGate s).input = s.input := by unfold txEndTimeoutGate; split <;> rfl

@[simp] theorem txAdvance_timCount (s : State) : (txAdvance s).timCount = s.timCount := by unfold txAdvance; split <;> rfl
@[simp] theorem txAdvance_timRun (s : State) : (txAdvance s).timRun = s.timRun := by unfold txAdvance; split <;> rfl
@[simp] theorem txAdvance_midFired (s : State) : (txAdvance s).midFired = s.midFired := by unfold txAdvance; split <;> rfl
@[simp] theorem txAdvance_endFired (s : State) : (txAdvance s).endFired = s.endFired := by unfold txAdvance; split <;> rfl
@[simp] theorem txAdvance_faState (s : State) : (txAdvance s).faState = s.faState := by unfold txAdvance; split <;> rfl
@[simp] theorem txAdvance_rxBuf (s : State) : (txAdvance s).rxBuf = s.rxBuf := by unfold txAdvance; split <;> rfl
@[simp] theorem txAdvance_rxLen (s : State) : (txAdvance s).rxLen = s.rxLen := by unfold txAdvance; split <;> rfl
@[simp] theorem txAdvance_mbBuf (s : State) : (txAdvance s).mbBuf = s.mbBuf := by unfold txAdvance; split <;> rfl
@[simp] theorem txAdvance_mbLen (s : State) : (txAdvance s).mbLen = s.mbLen := by unfold txAdvance; split <;> rfl
@[simp] theorem txAdvance_txBuf (s : State) : (txAdvance s).txBuf = s.txBuf := by unfold txAdvance; split <;> rfl
@[simp] theorem txAdvance_txLen (s : State) : (txAdvance s).txLen = s.txLen := by unfold txAdvance; split <;> rfl
@[simp] theorem txAdvance_dispPhase (s : State) : (txAdvance s).dispPhase = s.dispPhase := by unfold txAdvance; split <;> rfl
@[simp] theorem txAdvance_dispOut (s : State) : (txAdvance s).dispOut = s.dispOut := by unfold txAdvance; split <;> rfl
@[simp] theorem txAdvance_dispOutLen (s : State) : (txAdvance s).dispOutLen = s.dispOutLen := by unfold txAdvance; split <;> rfl
@[simp] theorem txAdvance_store (s : State) : (txAdvance s).store = s.store := by unfold txAdvance; split <;> rfl
@[simp] theorem txAdvance_cfg (s : State) : (txAdvance s).cfg = s.cfg := by unfold txAdvance; split <;> rfl
@[simp] theorem txAdvance_cfgPins (s : State) : (txAdvance s).cfgPins = s.cfgPins := by unfold txAdvance; split <;> rfl
@[simp] theorem txAdvance_hasReset (s : State) : (txAdvance s).hasReset = s.hasReset := by unfold txAdvance; split <;> rfl
@[simp] theorem txAdvance_input (s : State) : (txAdvance s).input = s.input := by unfold txAdvance; split <;> rfl

@[simp] theorem midTimeout_timCount (s : State) : (midTimeout s).timCount = s.timCount := by unfold midTimeout; split <;> rfl
@[simp] theorem midTimeout_timRun (s : State) : (midTimeout s).timRun = s.timRun := by unfold midTimeout; split <;> rfl
@[simp] theorem midTimeout_endFired (s : State) : (midTimeout s).endFired = s.endFired := by unfold midTimeout; split <;> rfl
@[simp] theorem midTimeout_faState (s : State) : (midTimeout s).faState = s.faState := by unfold midTimeout; split <;> rfl
@[simp] theorem midTimeout_rxBuf (s : State) : (midTimeout s).rxBuf = s.rxBuf := by unfold midTimeout; split <;> rfl
@[simp] theorem midTimeout_rxLen (s : State) : (midTimeout s).rxLen = s.rxLen := by unfold midTimeout; split <;> rfl
@[simp] theorem midTimeout_mbBuf (s : State) : (midTimeout s).mbBuf = s.mbBuf := by unfold midTimeout; split <;> rfl
@[simp] theorem midTimeout_mbLen (s : State) : (midTimeout s).mbLen = s.mbLen := by unfold midTimeout; split <;> rfl
@[simp] theorem midTimeout_txBuf (s : State) : (midTimeout s).txBuf = s.txBuf := by unfold midTimeout; split <;> rfl
@[simp] theorem midTimeout_txLen (s : State) : (midTimeout s).txLen = s.txLen := by unfold midTimeout; split <;> rfl
@[simp] theorem midTimeout_txCur (s : State) : (midTimeout s).txCur = s.txCur := by unfold midTimeout; split <;> rfl
@[simp] theorem midTimeout_txState (s : State) : (midTimeout s).txState = s.txState := by unfold midTimeout; split <;> rfl
@[simp] theorem midTimeout_txInflight (s : State) : (midTimeout s).txInflight = s.txInflight := by unfold midTimeout; split <;> rfl
@[simp] theorem midTimeout_dispPhase (s : State) : (midTimeout s).dispPhase = s.dispPhase := by unfold midTimeout; split <;> rfl
@[simp] theorem midTimeout_dispOut (s : State) : (midTimeout s).dispOut = s.dispOut := by unfold midTimeout; split <;> rfl
@[simp] theorem midTimeout_dispOutLen (s : State) : (midTimeout s).dispOutLen = s.dispOutLen := by unfold midTimeout; split <;> rfl
@[simp] theorem midTimeout_store (s : State) : (midTimeout s).store = s.store := by unfold midTimeout; split <;> rfl
@[simp] theorem midTimeout_cfg (s : State) : (midTimeout s).cfg = s.cfg := by unfold midTimeout; split <;> rfl
@[simp] theorem midTimeout_cfgPins (s : State) : (midTimeout s).cfgPins = s.cfgPins := by unfold midTimeout; split <;> rfl
@[simp] theorem midTimeout_hasReset (s : State) : (midTimeout s).hasReset = s.hasReset := by unfold midTimeout; split <;> rfl
@[simp] theorem midTimeout_input (s : State) : (midTimeout s).input = s.input := by unfold midTimeout; split <;> rfl
@[simp] theorem midTimeout_outputs (s : State) : (midTimeout s).outputs = s.outputs := by unfold midTimeout; split <;> rfl

@[simp] theorem endOfFrame_rxLen (s : State) : (endOfFrame s).rxLen = 0 := by
  unfold endOfFrame; split <;> simp_all
@[simp] theorem endOfFrame_faState (s : State) : (endOfFrame s).faState = .idle := by
  unfold endOfFrame; split <;> rfl
@[simp] theorem txAdvance_txCur (s : State) : (txAdvance s).txCur = s.txCur + 1 := by
  unfold txAdvance; split <;> rfl

end Sys2Proof.Machine
end

