-- ==== Sys2Proof/Laws/Memory.lean ====
section
/-! SUPPORT. Laws of the Register Store (spec/20_memory.md): the canonical form is kept, a read gives the last write, and equal
contents are equal data. -/

namespace Sys2Proof.Machine

section cells

variable {α : Type} [DecidableEq α] {d : α}

/-- Indices strictly rising: what reading and writing rely on. -/
abbrev Rising (m : Cells α) : Prop := m.Pairwise (fun x y => x.1 < y.1)

omit [DecidableEq α] in
/-- An index below all listed ones reads as unlisted. -/
theorem cellRead_of_lt {m : Cells α} {a : Nat} (h : ∀ x ∈ m, a < x.1) : cellRead d m a = d := by
  induction m with
  | nil => rfl
  | cons x rest ih =>
    have hx : a ≠ x.1 := Nat.ne_of_lt (h x (by simp))
    simp only [cellRead, hx, if_false]
    exact ih fun y hy => h y (by simp [hy])

/-- A write leaves every other element alone (R51, R69). -/
theorem cellRead_cellWrite_other (m : Cells α) {a x : Nat} (v : α) (h : x ≠ a) :
    cellRead d (cellWrite d m a v) x = cellRead d m x := by
  induction m with
  | nil => unfold cellWrite; split <;> simp [cellRead, h]
  | cons y rest ih =>
    unfold cellWrite
    split
    · split <;> simp [cellRead, h]
    · split
      · rename_i _ hy
        subst hy
        split <;> simp [cellRead, h]
      · simp [cellRead, ih]

/-- A read gives the last write (R69). -/
theorem cellRead_cellWrite_same {m : Cells α} (hm : Rising m) (a : Nat) (v : α) :
    cellRead d (cellWrite d m a v) a = v := by
  induction m with
  | nil => unfold cellWrite; split <;> simp_all [cellRead]
  | cons y rest ih =>
    have ⟨hy, hrest⟩ := List.pairwise_cons.mp hm
    unfold cellWrite
    split
    · rename_i hlt
      split
      · rename_i hv
        subst hv
        refine cellRead_of_lt fun x hx => ?_
        rcases List.mem_cons.mp hx with rfl | hx
        · exact hlt
        · exact Nat.lt_trans hlt (hy x hx)
      · simp [cellRead]
    · split
      · rename_i hEq
        subst hEq
        split
        · rename_i hv
          subst hv
          exact cellRead_of_lt hy
        · simp [cellRead]
      · rename_i hne
        simp [cellRead, hne, ih hrest]

/-- The elements after a write come from the write or from before. -/
theorem mem_cellWrite {m : Cells α} {a : Nat} {v : α} {x : Nat × α} (h : x ∈ cellWrite d m a v) :
    (x = (a, v) ∧ v ≠ d) ∨ x ∈ m := by
  induction m with
  | nil => unfold cellWrite at h; split at h <;> simp_all
  | cons y rest ih =>
    unfold cellWrite at h
    split at h
    · split at h
      · exact .inr h
      · rcases List.mem_cons.mp h with rfl | h
        · exact .inl ⟨rfl, ‹_›⟩
        · exact .inr h
    · split at h
      · split at h
        · exact .inr (by simp [h])
        · rcases List.mem_cons.mp h with rfl | h
          · exact .inl ⟨rfl, ‹_›⟩
          · exact .inr (by simp [h])
      · rcases List.mem_cons.mp h with rfl | h
        · exact .inr (by simp)
        · rcases ih h with h | h
          · exact .inl h
          · exact .inr (by simp [h])

theorem rising_cellWrite {m : Cells α} (hm : Rising m) (a : Nat) (v : α) : Rising (cellWrite d m a v) := by
  induction m with
  | nil => unfold cellWrite; split <;> simp [Rising]
  | cons y rest ih =>
    have ⟨hy, hrest⟩ := List.pairwise_cons.mp hm
    unfold cellWrite
    split
    · rename_i hlt
      split
      · exact hm
      · refine List.pairwise_cons.mpr ⟨fun x hx => ?_, hm⟩
        rcases List.mem_cons.mp hx with rfl | hx
        · exact hlt
        · exact Nat.lt_trans hlt (hy x hx)
    · split
      · rename_i hEq
        subst hEq
        split
        · exact hrest
        · exact List.pairwise_cons.mpr ⟨hy, hrest⟩
      · rename_i hnlt hne
        refine List.pairwise_cons.mpr ⟨fun x hx => ?_, ih hrest⟩
        rcases mem_cellWrite hx with ⟨rfl, -⟩ | hx
        · show y.1 < a
          omega
        · exact hy x hx

/-- A write inside the space keeps the canonical form. -/
theorem cellsWf_cellWrite {cap : Nat} {m : Cells α} (hm : cellsWf d cap m) {a : Nat} (ha : a < cap) (v : α) :
    cellsWf d cap (cellWrite d m a v) := by
  refine ⟨rising_cellWrite hm.1 a v, fun x hx => ?_⟩
  rcases mem_cellWrite hx with ⟨rfl, hv⟩ | hx
  · exact ⟨ha, hv⟩
  · exact hm.2 x hx

omit [DecidableEq α] in
/-- An index that is not listed reads as unlisted. -/
theorem cellRead_of_not_mem {m : Cells α} {a : Nat} (h : ∀ x ∈ m, x.1 ≠ a) : cellRead d m a = d := by
  induction m with
  | nil => rfl
  | cons x rest ih =>
    have hx : a ≠ x.1 := (h x (by simp)).symm
    simp only [cellRead, hx, if_false]
    exact ih fun y hy => h y (by simp [hy])

/-- Canonical spaces that read alike are equal data. -/
theorem cells_ext {cap : Nat} {m n : Cells α} (hm : cellsWf d cap m) (hn : cellsWf d cap n)
    (h : ∀ a, cellRead d m a = cellRead d n a) : m = n := by
  induction m generalizing n with
  | nil =>
    cases n with
    | nil => rfl
    | cons y ns =>
      have := h y.1
      simp only [cellRead, if_true] at this
      exact absurd this.symm (hn.2 y (by simp)).2
  | cons x ms ih =>
    have ⟨hx, hms⟩ := List.pairwise_cons.mp hm.1
    have xd := (hm.2 x (by simp)).2
    cases n with
    | nil =>
      have := h x.1
      simp only [cellRead, if_true] at this
      exact absurd this xd
    | cons y ns =>
      have ⟨hy, hns⟩ := List.pairwise_cons.mp hn.1
      have yd := (hn.2 y (by simp)).2
      have hkey : x.1 = y.1 := by
        rcases Nat.lt_trichotomy x.1 y.1 with hlt | heq | hgt
        · have e := h x.1
          rw [cellRead_of_lt (m := y :: ns) (by
            intro z hz
            rcases List.mem_cons.mp hz with rfl | hz
            · exact hlt
            · exact Nat.lt_trans hlt (hy z hz))] at e
          simp only [cellRead, if_true] at e
          exact absurd e xd
        · exact heq
        · have e := h y.1
          rw [cellRead_of_lt (m := x :: ms) (by
            intro z hz
            rcases List.mem_cons.mp hz with rfl | hz
            · exact hgt
            · exact Nat.lt_trans hgt (hx z hz))] at e
          simp only [cellRead, if_true] at e
          exact absurd e.symm yd
      have hval : x.2 = y.2 := by
        have e := h x.1
        simpa only [cellRead, hkey, if_true] using e
      have hxy : x = y := Prod.ext hkey hval
      subst hxy
      congr 1
      refine ih ⟨hms, fun z hz => hm.2 z (by simp [hz])⟩ ⟨hns, fun z hz => hn.2 z (by simp [hz])⟩ fun a => ?_
      by_cases ha : a = x.1
      · subst ha
        rw [cellRead_of_lt hx, cellRead_of_lt hy]
      · have e := h a
        simpa only [cellRead, ha, if_false] using e

/-- Writing what an element holds changes nothing (R62). -/
theorem cellWrite_same {cap : Nat} {m : Cells α} (hm : cellsWf d cap m) {a : Nat} (ha : a < cap) {v : α}
    (h : cellRead d m a = v) : cellWrite d m a v = m := by
  refine cells_ext (cellsWf_cellWrite hm ha v) hm fun x => ?_
  by_cases hx : x = a
  · subst hx
    rw [cellRead_cellWrite_same hm.1, h]
  · exact cellRead_cellWrite_other m v hx

end cells

/-! ### The whole store -/

/-- The space and index of a write (R53) tell which element of which space it sets; every other reads as before. -/
theorem memRead_memWrite_other (m : Store) {a b : Nat} {sp : Space} (v : Item) (h : sp ≠ v.space ∨ b ≠ a) :
    memRead (memWrite m a v) sp b = memRead m sp b := by
  cases v <;> cases sp <;> simp_all [memRead, memWrite, Item.space, cellRead_cellWrite_other]

/-- A read gives the last write to the element (R52, R53, R69). -/
theorem memRead_memWrite_same {c : Config} {m : Store} (hm : Memory.wf c m) (a : Nat) (v : Item) :
    memRead (memWrite m a v) v.space a = v := by
  obtain ⟨h1, h2, h3, h4⟩ := hm
  cases v <;> simp only [memRead, memWrite, Item.space]
  · rw [cellRead_cellWrite_same h1.1]
  · rw [cellRead_cellWrite_same h2.1]
  · rw [cellRead_cellWrite_same h3.1]
  · rw [cellRead_cellWrite_same h4.1]

/-- A write inside its space keeps the canonical form of the store. -/
theorem memoryWf_memWrite {c : Config} {m : Store} (hm : Memory.wf c m) {a : Nat} {v : Item}
    (ha : a < c.capacity v.space) : Memory.wf c (memWrite m a v) := by
  obtain ⟨h1, h2, h3, h4⟩ := hm
  cases v
  · exact ⟨cellsWf_cellWrite h1 ha _, h2, h3, h4⟩
  · exact ⟨h1, cellsWf_cellWrite h2 ha _, h3, h4⟩
  · exact ⟨h1, h2, cellsWf_cellWrite h3 ha _, h4⟩
  · exact ⟨h1, h2, h3, cellsWf_cellWrite h4 ha _⟩

/-- Stores that hold the same elements are equal data. -/
theorem store_ext {c : Config} {m n : Store} (hm : Memory.wf c m) (hn : Memory.wf c n)
    (h : ∀ sp a, memRead m sp a = memRead n sp a) : m = n := by
  obtain ⟨h1, h2, h3, h4⟩ := hm
  obtain ⟨k1, k2, k3, k4⟩ := hn
  have e1 := cells_ext h1 k1 fun a => by simpa [memRead] using h .coil a
  have e2 := cells_ext h2 k2 fun a => by simpa [memRead] using h .di a
  have e3 := cells_ext h3 k3 fun a => by simpa [memRead] using h .hr a
  have e4 := cells_ext h4 k4 fun a => by simpa [memRead] using h .ir a
  cases m; cases n; simp_all

/-- The legal configurations, written out (R9, I11). -/
theorem legalConfig_iff (c : Config) : legalConfig c = true ↔
    1 ≤ c.charTicks ∧ 1 ≤ c.t15Ticks ∧ c.t15Ticks < c.t35Ticks ∧ 4 ≤ c.rxCap ∧ 8 ≤ c.txCap ∧
    c.nCoils ≤ 65536 ∧ c.nDi ≤ 65536 ∧ c.nHr ≤ 65536 ∧ c.nIr ≤ 65536 ∧ Memory.wf c c.storeInit := by
  unfold legalConfig
  exact decide_eq_true_iff

/-! ### Runs of writes (R199, R200), all to one space `sp` -/

section runs

variable {sp : Space}

theorem memRead_memWriteRun_other (m : Store) {a b : Nat} {sp' : Space} (vs : List Item) (hv : ∀ v ∈ vs, v.space = sp)
    (h : sp' ≠ sp ∨ b < a ∨ a + vs.length ≤ b) : memRead (memWriteRun m a vs) sp' b = memRead m sp' b := by
  induction vs generalizing m a with
  | nil => rfl
  | cons v vs ih =>
    simp only [memWriteRun, List.length_cons] at *
    rw [ih (memWrite m a v) (fun w hw => hv w (by simp [hw])) (h.imp_right (by omega))]
    apply memRead_memWrite_other
    rw [hv v (by simp)]
    exact h.imp_right (by omega)

theorem memoryWf_memWriteRun {c : Config} {m : Store} (hm : Memory.wf c m) {a : Nat} {vs : List Item}
    (hv : ∀ v ∈ vs, v.space = sp) (h : a + vs.length ≤ c.capacity sp) : Memory.wf c (memWriteRun m a vs) := by
  induction vs generalizing m a with
  | nil => exact hm
  | cons v vs ih =>
    simp only [memWriteRun, List.length_cons] at *
    refine ih (memoryWf_memWrite hm ?_) (fun w hw => hv w (by simp [hw])) (by omega)
    rw [hv v (by simp)]
    omega

theorem memRead_memWriteRun_same {c : Config} {m : Store} (hm : Memory.wf c m) {a : Nat} {vs : List Item}
    (hv : ∀ v ∈ vs, v.space = sp) (h : a + vs.length ≤ c.capacity sp) {i : Nat} (hi : i < vs.length) :
    memRead (memWriteRun m a vs) sp (a + i) = vs[i] := by
  induction vs generalizing m a i with
  | nil => simp at hi
  | cons v vs ih =>
    have hsp := hv v (by simp)
    have hrest : ∀ w ∈ vs, w.space = sp := fun w hw => hv w (by simp [hw])
    rw [List.length_cons] at h
    rw [memWriteRun]
    cases i with
    | zero =>
      rw [memRead_memWriteRun_other _ vs hrest (.inr (.inl (by omega))), ← hsp]
      simpa using memRead_memWrite_same hm a v
    | succ i =>
      have hw : Memory.wf c (memWrite m a v) := memoryWf_memWrite hm (by rw [hsp]; omega)
      have := ih hw hrest (a := a + 1) (by omega) (i := i) (by simpa using hi)
      simpa [Nat.add_assoc, Nat.add_comm 1 i] using this

end runs

@[simp] theorem readRun_length {α : Type} (d : α) (cells : Cells α) (start n : Nat) :
    (readRun d cells start n).length = n := by simp [readRun]

@[simp] theorem readRun_getElem {α : Type} (d : α) (cells : Cells α) (start n i : Nat)
    (h : i < (readRun d cells start n).length) : (readRun d cells start n)[i] = cellRead d cells (start + i) := by
  simp [readRun]

end Sys2Proof.Machine
end

