-- ==== Sys2Proof/Laws/Words.lean ====
section
/-! SUPPORT. Laws of the 16-bit fields, the CRC and the bit packing. -/

namespace Sys2Proof.Machine

/-! ### 16-bit fields (R56, R57) -/

@[simp] theorem be16_hiByte_loByte (w : Word) : be16 (hiByte w) (loByte w) = w := by
  apply BitVec.eq_of_getLsbD_eq
  intro i hi
  by_cases h : i < 8
  · simp [be16, hiByte, loByte, h, hi]
  · have h' : 8 + (i - 8) = i := by omega
    simp [be16, hiByte, loByte, h, hi, h']
    omega

@[simp] theorem hiByte_be16 (h l : Byte) : hiByte (be16 h l) = h := by
  apply BitVec.eq_of_getLsbD_eq
  intro i hi
  have h' : 8 + i < 16 := by omega
  have h'' : i < 16 := by omega
  simp [be16, hiByte, hi, h', h'']

@[simp] theorem loByte_be16 (h l : Byte) : loByte (be16 h l) = l := by
  apply BitVec.eq_of_getLsbD_eq
  intro i hi
  simp [be16, loByte, hi]

/-- The two byte-appending forms of the CRC are one (R114). -/
theorem withCrc_eq_sealed (o : List Byte) : withCrc o = sealed o := rfl

@[simp] theorem withCrc_length (o : List Byte) : (withCrc o).length = o.length + 2 := by simp [withCrc]

@[simp] theorem withCrc_take (o : List Byte) : (withCrc o).take o.length = o := by simp [withCrc]

/-! ### The CRC (R110 to R114) -/

@[simp] theorem crc16_nil : crc16 [] = 0xFFFF := rfl

theorem crc16_append_byte (f : List Byte) (b : Byte) : crc16 (f ++ [b]) = crcByte (crc16 f) b := by
  simp [crc16]

/-- An inner step is linear over XOR. -/
theorem crcShift_xor (a b : Word) : crcShift (a ^^^ b) = crcShift a ^^^ crcShift b := by
  unfold crcShift
  rw [BitVec.getLsbD_xor, BitVec.ushiftRight_xor_distrib]
  cases a.getLsbD 0 <;> cases b.getLsbD 0 <;> simp
  · ac_rfl
  · ac_rfl
  · rw [BitVec.xor_assoc, BitVec.xor_comm 0xA001#16 _, ← BitVec.xor_assoc, BitVec.xor_assoc, BitVec.xor_assoc, BitVec.xor_self]; simp

theorem crcShifts_xor (k : Nat) (a b : Word) : crcShifts k (a ^^^ b) = crcShifts k a ^^^ crcShifts k b := by
  induction k generalizing a b with
  | zero => rfl
  | succ k ih => rw [crcShifts, crcShift_xor, ih]; rfl

/-- Eight inner steps on a word whose low byte is 0 only shift. -/
theorem crcShifts_high (b : Byte) : crcShifts 8 (b.setWidth 16 <<< 8) = b.setWidth 16 := by
  revert b; decide +kernel

/-- The printed table holds R110's inner loop of every byte (R111). -/
theorem crcTable_entry (b : Byte) : crcTable.getD b.toNat 0 = crcShifts 8 (b.setWidth 16) := by
  revert b; decide +kernel

/-- A word is its high byte's part and its low byte's. -/
theorem word_split (w : Word) : w = ((hiByte w).setWidth 16 <<< 8) ^^^ (loByte w).setWidth 16 := by
  apply BitVec.eq_of_getLsbD_eq
  intro i hi
  by_cases h : i < 8
  · simp [hiByte, loByte, h, hi]
  · have h' : 8 + (i - 8) = i := by omega
    simp [hiByte, loByte, h, hi, h']
    omega

/-- Eight inner steps: the high byte moves down, the low byte goes through the table. -/
theorem crcShifts_eight (w : Word) : crcShifts 8 w = (hiByte w).setWidth 16 ^^^ crcShifts 8 ((loByte w).setWidth 16) := by
  conv_lhs => rw [word_split w]
  rw [crcShifts_xor, crcShifts_high]

theorem hiByte_xor_byte (c : Word) (b : Byte) : hiByte (c ^^^ b.setWidth 16) = hiByte c := by
  apply BitVec.eq_of_getLsbD_eq
  intro i hi
  simp [hiByte, hi]

theorem setWidth_hiByte (c : Word) : (hiByte c).setWidth 16 = c >>> 8 := by
  apply BitVec.eq_of_getLsbD_eq
  intro i hi
  by_cases h : i < 8
  · simp [hiByte, h, hi]
  · have := BitVec.getLsbD_of_ge c (8 + i) (by omega)
    simp [hiByte, h, this]

/-- One byte through the table is one byte through the loop (R111). -/
theorem crcTableByte_eq (c : Word) (b : Byte) : crcTableByte c b = crcByte c b := by
  rw [crcByte, crcShifts_eight, hiByte_xor_byte, setWidth_hiByte, crcTableByte, crcTable_entry]

/-- The low CRC byte, run through the engine, leaves the high one (R114). -/
theorem crcByte_loByte (c : Word) : crcByte c (loByte c) = (hiByte c).setWidth 16 := by
  rw [crcByte, crcShifts_eight, hiByte_xor_byte]
  have : loByte (c ^^^ (loByte c).setWidth 16) = 0 := by
    apply BitVec.eq_of_getLsbD_eq
    intro i hi
    simp [loByte, hi]
  rw [this]
  simp
  decide

theorem crcByte_high_zero (b : Byte) : crcByte (b.setWidth 16) b = 0 := by
  simp [crcByte]
  decide

/-- The check compares the last two bytes with the CRC of the rest, low byte first (R113). -/
theorem crcPasses_iff (f : List Byte) : crcPasses f = true ↔
    f.getD (f.length - 2) 0 = loByte (crc16 (f.take (f.length - 2))) ∧
    f.getD (f.length - 1) 0 = hiByte (crc16 (f.take (f.length - 2))) := by
  unfold crcPasses receivedCrc
  rw [decide_eq_true_iff]
  constructor
  · intro h
    rw [h]
    simp
  · rintro ⟨h1, h2⟩
    rw [h1, h2]
    simp

theorem receivedCrc_withCrc (o : List Byte) : receivedCrc (withCrc o) = crc16 o := by
  have h1 : o.length + 2 - 1 = o.length + 1 := by omega
  have h2 : o.length + 2 - 2 = o.length := by omega
  simp [receivedCrc, h1, withCrc]

/-- A frame the block appends the CRC to passes the check (R113, R114). -/
@[simp] theorem crcPasses_withCrc (o : List Byte) : crcPasses (withCrc o) = true := by
  simp [crcPasses, receivedCrc_withCrc]

/-- The CRC over a frame with its CRC is 0 (R115). -/
theorem crc16_withCrc (o : List Byte) : crc16 (withCrc o) = 0 := by
  have : withCrc o = (o ++ [loByte (crc16 o)]) ++ [hiByte (crc16 o)] := by simp [withCrc]
  rw [this, crc16_append_byte, crc16_append_byte, crcByte_loByte, crcByte_high_zero]

@[simp] theorem framePdu_withCrc (a : Byte) (pdu : List Byte) : framePdu (withCrc (a :: pdu)) = pdu := by
  simp [framePdu, withCrc]

/-! ### Bit packing (R58) -/

/-- Bit `j` of a packed byte is point `j` (R58). -/
theorem packByte_bit (bits : List Bool) (j : Nat) (h : j < 8) : (packByte bits).getLsbD j = bits.getD j false := by
  induction bits generalizing j with
  | nil => simp [packByte]
  | cons b bs ih =>
    cases j with
    | zero => cases b <;> simp [packByte]
    | succ j =>
      have hj : j < 8 := by omega
      simp only [packByte, BitVec.getLsbD_or, BitVec.getLsbD_shiftLeft, h]
      simp [ih j hj]

@[simp] theorem packBits_length (bits : List Bool) : (packBits bits).length = ceil8 bits.length := by simp [packBits]

/-- Point `i` of packed points (R58, R89): the point, or 0 in the padding. -/
theorem packedBit_packBits (bits : List Bool) (i : Nat) : packedBit (packBits bits) i = bits.getD i false := by
  unfold packedBit
  have hm : i % 8 < 8 := Nat.mod_lt _ (by omega)
  by_cases h : i / 8 < ceil8 bits.length
  · have : (packBits bits).getD (i / 8) 0 = packByte ((bits.drop (8 * (i / 8))).take 8) := by
      simp [packBits, h]
    rw [this, packByte_bit _ _ hm]
    simp only [List.getD_eq_getElem?_getD, List.getElem?_take, hm, if_true, List.getElem?_drop]
    rw [Nat.div_add_mod]
  · have hlen : bits.length ≤ i := by unfold ceil8 at h; omega
    have : (packBits bits).length ≤ i / 8 := by simp; omega
    simp [List.getElem?_eq_none this, List.getElem?_eq_none hlen]

@[simp] theorem unpackBits_length (data : List Byte) (qty : Nat) : (unpackBits data qty).length = qty := by
  simp [unpackBits]

@[simp] theorem dataWords_length (data : List Byte) (qty : Nat) : (dataWords data qty).length = qty := by
  simp [dataWords]

/-- Unpacking packed points gives them back (R58). -/
theorem unpackBits_packBits (bits : List Bool) : unpackBits (packBits bits) bits.length = bits := by
  apply List.ext_getElem
  · simp
  · intro i h1 h2
    simp [unpackBits, packedBit_packBits, h2]

@[simp] theorem regBytes_length (ws : List Word) : (regBytes ws).length = 2 * ws.length := by
  induction ws with
  | nil => rfl
  | cons w ws ih => simp [regBytes, ih]; omega

/-- Register `i` is bytes `2i` and `2i+1`, high byte first (R56, R90). -/
theorem dataWord_regBytes (ws : List Word) (i : Nat) (h : i < ws.length) : dataWord (regBytes ws) i = ws.getD i 0 := by
  induction ws generalizing i with
  | nil => simp at h
  | cons w ws ih =>
    cases i with
    | zero => simp [dataWord, regBytes]
    | succ i =>
      have := ih i (by simpa using h)
      simpa [dataWord, regBytes, Nat.mul_succ] using this

end Sys2Proof.Machine
end

