-- ==== Sys2Proof/Laws/Dispatcher.lean ====
section
/-! SUPPORT. Spec lemmas of the dispatcher: buffers, the building of an answer, the handlers' replies, and what DISPATCH can do. -/

namespace Sys2Proof.Machine

/-! ### Buffers -/

@[simp] theorem overlay_take (new old : List Byte) : (overlay new old).take new.length = new := by simp [overlay]

theorem overlay_length {new old : List Byte} (h : new.length ≤ old.length) : (overlay new old).length = old.length := by
  simp [overlay]
  omega

@[simp] theorem overlay_overlay_same (new old : List Byte) : overlay new (overlay new old) = overlay new old := by
  simp [overlay]

@[simp] theorem holdFrame_heldFrame (o : List Byte) (s : State) : (holdFrame o s).heldFrame = o := by
  simp [State.heldFrame]

/-! ### Answers -/

/-- The frame a reply becomes (R179, R180). -/
def replyFrame (addr fc : Byte) : Reply → List Byte
  | .success payload => responseFrame addr fc payload
  | .exception code => exceptionFrame addr fc code

/-- A request answered in the phase Ready. -/
theorem answer_ready (fc : Byte) (h : Store × Reply) {s : State} (hs : s.dispPhase = .ready) :
    answer fc h s = .next (holdFrame (replyFrame s.cfg.localAddr fc h.2) { s with store := h.1 }) := by
  obtain ⟨m, r⟩ := h
  cases r <;> simp [answer, hs, replyFrame, buildResponse, buildException]

/-- A request answered in the phase Ready, in the claims' terms. -/
theorem answersWith_of_answer {i : Instr} {s : State} {fc : Byte} {h : Store × Reply} (hs : s.dispPhase = .ready)
    (e : exec i s = answer fc h s) : AnswersWith i s h.1 (replyFrame s.cfg.localAddr fc h.2) := by
  rw [AnswersWith, e, answer_ready fc h hs]
  rfl

/-- All an answer can do, if it answers. -/
theorem answer_next {fc : Byte} {h : Store × Reply} {s t : State} (ht : answer fc h s = .next t) :
    s.dispPhase = .ready ∧ t = holdFrame (replyFrame s.cfg.localAddr fc h.2) { s with store := h.1 } := by
  by_cases hs : s.dispPhase = .ready
  · rw [answer_ready fc h hs] at ht
    exact ⟨hs, (Host.Outcome.next.inj ht).symm⟩
  · simp [answer, hs] at ht

/-- A handler's reply fits the transmit buffer (R190). -/
def Reply.Fits (txCap : Nat) (r : Reply) : Prop := ∀ p, r = .success p → p.length + 4 ≤ txCap ∧ 1 ≤ p.length

theorem replyFrame_bounds {addr fc : Byte} {r : Reply} {txCap : Nat} (h8 : 8 ≤ txCap) (h : r.Fits txCap) :
    5 ≤ (replyFrame addr fc r).length ∧ (replyFrame addr fc r).length ≤ txCap := by
  cases r with
  | success p =>
    have := h p rfl
    simp [replyFrame, responseFrame]
    omega
  | exception code =>
    simp [replyFrame, exceptionFrame]
    omega

theorem replyFrame_station (addr fc : Byte) (r : Reply) : (replyFrame addr fc r).getD 0 0 = addr := by
  cases r <;> simp [replyFrame, responseFrame, exceptionFrame, withCrc]

@[simp] theorem replyFrame_crcPasses (addr fc : Byte) (r : Reply) : crcPasses (replyFrame addr fc r) = true := by
  cases r <;> simp [replyFrame, responseFrame, exceptionFrame]

/-- A reply that fits, held for EMIT, is a complete outbound ADU of this station (R32, R179, R180). -/
theorem holdFrame_replyFrame_ok {s : State} {fc : Byte} {r : Reply} (h8 : 8 ≤ s.cfg.txCap) (h : r.Fits s.cfg.txCap) :
    (holdFrame (replyFrame s.cfg.localAddr fc r) s).HeldFrameOk where
  enough := (replyFrame_bounds h8 h).1
  fits := (replyFrame_bounds h8 h).2
  station := by rw [holdFrame_heldFrame]; exact replyFrame_station _ _ _
  crc := by rw [holdFrame_heldFrame]; exact replyFrame_crcPasses _ _ _

/-- Byte 1 of an answer: the function code, with bit 7 set exactly by an exception (R179, R180). -/
theorem replyFrame_code (addr fc : Byte) (r : Reply) :
    (∃ p, r = .success p ∧ (replyFrame addr fc r).getD 1 0 = fc) ∨
    (∃ code, r = .exception code ∧ (replyFrame addr fc r).getD 1 0 = fc ||| 0x80) := by
  cases r with
  | success p => exact .inl ⟨p, rfl, by simp [replyFrame, responseFrame, withCrc]⟩
  | exception code => exact .inr ⟨code, rfl, by simp [replyFrame, exceptionFrame, withCrc]⟩

/-! ### Replies -/

theorem readBits_fits (cells : Cells Bool) (cap txCap : Nat) (start qty : Word) :
    (readBits cells cap txCap start qty).Fits txCap := by
  intro p hp
  unfold readBits at hp
  split at hp
  · cases hp
  split at hp
  · cases hp
  split at hp
  · cases hp
  split at hp
  · cases hp
  · injection hp with hp
    subst hp
    simp
    omega

theorem readRegs_fits (cells : Cells Word) (cap txCap : Nat) (start qty : Word) :
    (readRegs cells cap txCap start qty).Fits txCap := by
  intro p hp
  unfold readRegs at hp
  split at hp
  · cases hp
  split at hp
  · cases hp
  split at hp
  · cases hp
  split at hp
  · cases hp
  · injection hp with hp
    subst hp
    simp
    omega

/-- What a write handler can do to a store: nothing and an exception, or a run of writes to one space inside its
capacity and the echo of two fields (R178, R183). -/
def WriteOutcome (c : Config) (m : Store) (sp : Space) (h : Store × Reply) : Prop :=
  (h.1 = m ∧ ∃ code, h.2 = .exception code) ∨
  (∃ a vs x y, h = (memWriteRun m a vs, .success (echoFields x y)) ∧ (∀ v ∈ vs, v.space = sp) ∧ a + vs.length ≤ c.capacity sp)

theorem writeSingleCoil_outcome (c : Config) (m : Store) (a v : Word) :
    WriteOutcome c m .coil (writeSingleCoil c m a v) := by
  unfold writeSingleCoil
  split
  · exact .inl ⟨rfl, _, rfl⟩
  split
  · exact .inl ⟨rfl, _, rfl⟩
  · refine .inr ⟨a.toNat, [.coil (v = coilOn)], a, v, rfl, by simp [Item.space], ?_⟩
    simp [Config.capacity]
    omega

theorem writeSingleRegister_outcome (c : Config) (m : Store) (a v : Word) :
    WriteOutcome c m .hr (writeSingleRegister c m a v) := by
  unfold writeSingleRegister
  split
  · exact .inl ⟨rfl, _, rfl⟩
  · refine .inr ⟨a.toNat, [.hr v], a, v, rfl, by simp [Item.space], ?_⟩
    simp [Config.capacity]
    omega

theorem writeMultipleCoils_outcome (c : Config) (m : Store) (start qty : Word) (bc : Byte) (data : List Byte) :
    WriteOutcome c m .coil (writeMultipleCoils c m start qty bc data) := by
  unfold writeMultipleCoils
  split
  · exact .inl ⟨rfl, _, rfl⟩
  split
  · exact .inl ⟨rfl, _, rfl⟩
  split
  · exact .inl ⟨rfl, _, rfl⟩
  split
  · exact .inl ⟨rfl, _, rfl⟩
  split
  · exact .inl ⟨rfl, _, rfl⟩
  · refine .inr ⟨_, _, _, _, rfl, List.forall_mem_map.mpr fun _ _ => rfl, ?_⟩
    simp_all [Config.capacity, rangeOk]

theorem writeMultipleRegisters_outcome (c : Config) (m : Store) (start qty : Word) (bc : Byte) (data : List Byte) :
    WriteOutcome c m .hr (writeMultipleRegisters c m start qty bc data) := by
  unfold writeMultipleRegisters
  split
  · exact .inl ⟨rfl, _, rfl⟩
  split
  · exact .inl ⟨rfl, _, rfl⟩
  split
  · exact .inl ⟨rfl, _, rfl⟩
  split
  · exact .inl ⟨rfl, _, rfl⟩
  split
  · exact .inl ⟨rfl, _, rfl⟩
  · refine .inr ⟨_, _, _, _, rfl, List.forall_mem_map.mpr fun _ _ => rfl, ?_⟩
    simp_all [Config.capacity, rangeOk]

theorem WriteOutcome.wf {c : Config} {m : Store} {sp : Space} {h : Store × Reply} (ho : WriteOutcome c m sp h)
    (hm : Memory.wf c m) : Memory.wf c h.1 := by
  rcases ho with ⟨h1, -⟩ | ⟨a, vs, x, y, rfl, hv, hc⟩
  · rw [h1]; exact hm
  · exact memoryWf_memWriteRun hm hv hc

theorem WriteOutcome.fits {c : Config} {m : Store} {sp : Space} {h : Store × Reply} {txCap : Nat}
    (ho : WriteOutcome c m sp h) (h8 : 8 ≤ txCap) : h.2.Fits txCap := by
  rcases ho with ⟨-, code, h2⟩ | ⟨a, vs, x, y, rfl, hv, hc⟩
  · intro p hp
    rw [h2] at hp
    cases hp
  · intro p hp
    injection hp with hp
    subst hp
    simp [echoFields]
    omega

/-- A run of writes to one space leaves the others' data. -/
theorem memWriteRun_others (m : Store) (a : Nat) {vs : List Item} {sp : Space} (hv : ∀ v ∈ vs, v.space = sp) :
    (sp ≠ .coil → (memWriteRun m a vs).coil = m.coil) ∧ (sp ≠ .di → (memWriteRun m a vs).di = m.di) ∧
    (sp ≠ .hr → (memWriteRun m a vs).hr = m.hr) ∧ (sp ≠ .ir → (memWriteRun m a vs).ir = m.ir) := by
  induction vs generalizing m a with
  | nil => simp [memWriteRun]
  | cons v vs ih =>
    have hsp := hv v (by simp)
    have := ih (memWrite m a v) (a + 1) (fun w hw => hv w (by simp [hw]))
    cases v <;> simp only [Item.space] at hsp <;> subst hsp <;> simp_all [memWriteRun, memWrite]

theorem WriteOutcome.others {c : Config} {m : Store} {sp : Space} {h : Store × Reply} (ho : WriteOutcome c m sp h) :
    (sp ≠ .di → h.1.di = m.di) ∧ (sp ≠ .ir → h.1.ir = m.ir) := by
  rcases ho with ⟨h1, -⟩ | ⟨a, vs, x, y, rfl, hv, hc⟩
  · simp [h1]
  · have := memWriteRun_others m a hv
    exact ⟨this.2.1, this.2.2.2⟩

/-! ### Requests -/

/-- The nine requests, as the dispatcher's answers (R177): its function code, its store and its reply. -/
theorem runRequest_answer {pdu : List Byte} {i : Instr} (h : decode pdu = .request i) (s : State) :
    runRequest i s = exec i s ∧
    ∃ hd, exec i s = answer (pdu.getD 0 0) hd s ∧
      ((hd.1 = s.store ∧ hd.2.Fits s.cfg.txCap ∧ (∀ p, hd.2 = .success p → pdu.getD 0 0 ∈ [0x01#8, 0x02#8, 0x03#8, 0x04#8])) ∨
       (pdu.getD 0 0 ∈ [0x05#8, 0x06#8, 0x0F#8, 0x10#8] ∧ ∃ sp, (sp = .coil ∨ sp = .hr) ∧ WriteOutcome s.cfg s.store sp hd)) := by
  cases pdu with
  | nil => simp [decode] at h
  | cons fc d =>
    have pair : ∀ mk : Word → Word → Instr, decodePair mk fc d = .request i → ∃ a v, i = mk a v := by
      intro mk h
      unfold decodePair at h
      split at h
      · exact ⟨_, _, (Decoded.request.inj h).symm⟩
      · cases h
    have multi : ∀ mk : Word → Word → Byte → List Byte → Instr, decodeMulti mk fc d = .request i →
        ∃ a v bc data, i = mk a v bc data := by
      intro mk h
      unfold decodeMulti at h
      split at h
      · exact ⟨_, _, _, _, (Decoded.request.inj h).symm⟩
      · cases h
    rw [decode] at h
    simp only [List.getD_cons_zero]
    split at h
    · obtain ⟨a, v, rfl⟩ := pair _ h
      rename_i hfc; subst hfc
      exact ⟨rfl, _, rfl, .inl ⟨rfl, readBits_fits _ _ _ _ _, by simp⟩⟩
    split at h
    · obtain ⟨a, v, rfl⟩ := pair _ h
      rename_i hfc; subst hfc
      exact ⟨rfl, _, rfl, .inl ⟨rfl, readBits_fits _ _ _ _ _, by simp⟩⟩
    split at h
    · obtain ⟨a, v, rfl⟩ := pair _ h
      rename_i hfc; subst hfc
      exact ⟨rfl, _, rfl, .inl ⟨rfl, readRegs_fits _ _ _ _ _, by simp⟩⟩
    split at h
    · obtain ⟨a, v, rfl⟩ := pair _ h
      rename_i hfc; subst hfc
      exact ⟨rfl, _, rfl, .inl ⟨rfl, readRegs_fits _ _ _ _ _, by simp⟩⟩
    split at h
    · obtain ⟨a, v, rfl⟩ := pair _ h
      rename_i hfc; subst hfc
      exact ⟨rfl, _, rfl, .inr ⟨by simp, _, .inl rfl, writeSingleCoil_outcome ..⟩⟩
    split at h
    · obtain ⟨a, v, rfl⟩ := pair _ h
      rename_i hfc; subst hfc
      exact ⟨rfl, _, rfl, .inr ⟨by simp, _, .inr rfl, writeSingleRegister_outcome ..⟩⟩
    split at h
    · obtain ⟨a, v, bc, data, rfl⟩ := multi _ h
      rename_i hfc; subst hfc
      exact ⟨rfl, _, rfl, .inr ⟨by simp, _, .inl rfl, writeMultipleCoils_outcome ..⟩⟩
    split at h
    · obtain ⟨a, v, bc, data, rfl⟩ := multi _ h
      rename_i hfc; subst hfc
      exact ⟨rfl, _, rfl, .inr ⟨by simp, _, .inr rfl, writeMultipleRegisters_outcome ..⟩⟩
    · injection h with h
      subst h
      exact ⟨rfl, (s.store, .exception .illegalFunction), rfl,
        .inl ⟨rfl, (by intro p hp; cases hp), (by intro p hp; cases hp)⟩⟩

/-- The PDU of a frame of at least 3 bytes begins with its byte 1. -/
theorem framePdu_code {f : List Byte} (h : 4 ≤ f.length) : (framePdu f).getD 0 0 = f.getD 1 0 := by
  have h2 : 1 < f.length - 2 := by omega
  simp only [framePdu, List.getD_eq_getElem?_getD, List.getElem?_drop, List.getElem?_take, Nat.add_zero, h2, if_true]

theorem diagnose_eq (f : List Byte) (s : State) : diagnose f s = { s with outputs := s.outputs ++ diagOutputs s f } := by
  unfold diagnose diagOutputs
  cases h : s.cfg.hasDiag <;> simp [State.emitted]

/-- All `Validate` can do (R184): drop a short frame, drop a frame after its DIAG, or run its request. -/
theorem validate_next {f : List Byte} {s t : State} (h : validate f s = .next t) :
    t = s ∨ t = diagnose f s ∨
    ∃ i, 4 ≤ f.length ∧ decode (framePdu f) = .request i ∧ runRequest i (diagnose f s) = .next t := by
  unfold validate at h
  split at h
  · exact .inl (Host.Outcome.next.inj h).symm
  dsimp only at h
  split at h
  · exact .inr (.inl (Host.Outcome.next.inj h).symm)
  split at h
  · exact .inr (.inl (Host.Outcome.next.inj h).symm)
  split at h
  · exact .inr (.inr ⟨_, by omega, ‹_›, h⟩)
  · exact .inr (.inl (Host.Outcome.next.inj h).symm)

/-- A frame that passes the three checks and decodes is run as its request (R171 to R177). -/
theorem validate_request {f : List Byte} {i : Instr} {s : State} (h4 : 4 ≤ f.length)
    (ha : f.getD 0 0 = s.cfg.localAddr) (hc : crcPasses f = true) (hd : decode (framePdu f) = .request i) :
    validate f s = exec i { s with outputs := s.outputs ++ diagOutputs s f } := by
  unfold validate
  rw [if_neg (show ¬ f.length < 4 by omega)]
  dsimp only
  rw [diagnose_eq, if_neg (not_not.mpr ha), if_neg (not_not.mpr hc), hd]
  exact (runRequest_answer hd _).1

/-- DISPATCH with a frame in the mailbox reads and validates it (R171). -/
theorem execDispatch_frame {s : State} (hr : s.dispPhase = .ready) (hn : s.mbLen ≠ 0) :
    exec .dispatch s = validate s.mailbox { s with mbLen := 0 } := by
  show execDispatch s = _
  unfold execDispatch
  rw [if_pos hr, if_neg hn]
  rfl

/-- A request that is answered in the phase Ready completes (R178). -/
theorem exec_request_completes {pdu : List Byte} {i : Instr} (h : decode pdu = .request i) {s : State}
    (hs : s.dispPhase = .ready) : ∃ t, exec i s = .next t := by
  obtain ⟨-, hd, e, -⟩ := runRequest_answer h s
  exact ⟨_, by rw [e, answer_ready _ _ hs]⟩

/-- Validation always completes in the phase Ready: it drops or answers (R178, R223). -/
theorem validate_completes (f : List Byte) {s : State} (hs : s.dispPhase = .ready) : ∃ t, validate f s = .next t := by
  unfold validate
  split
  · exact ⟨_, rfl⟩
  dsimp only
  rw [diagnose_eq]
  split
  · exact ⟨_, rfl⟩
  split
  · exact ⟨_, rfl⟩
  split
  · rename_i i hi
    rw [(runRequest_answer hi _).1]
    exact exec_request_completes hi hs
  · exact ⟨_, rfl⟩

/-- All DISPATCH can do (R171, R184): find nothing, drop a short frame, drop a frame after its DIAG, or answer it. -/
theorem execDispatch_next {s t : State} (h : exec .dispatch s = .next t) :
    s.dispPhase = .ready ∧
    ((s.mbLen = 0 ∧ t = s) ∨ t = { s with mbLen := 0 } ∨
     t = { s with mbLen := 0, outputs := s.outputs ++ diagOutputs s s.mailbox } ∨
     ∃ i, 4 ≤ s.mailbox.length ∧ decode (framePdu s.mailbox) = .request i ∧
       exec i { s with mbLen := 0, outputs := s.outputs ++ diagOutputs s s.mailbox } = .next t) := by
  simp only [exec, execDispatch] at h
  split at h
  · refine ⟨‹_›, ?_⟩
    split at h
    · exact .inl ⟨‹_›, (Host.Outcome.next.inj h).symm⟩
    rcases validate_next h with rfl | rfl | ⟨i, hlen, hi, h⟩
    · exact .inr (.inl rfl)
    · exact .inr (.inr (.inl (diagnose_eq _ _)))
    · refine .inr (.inr (.inr ⟨i, hlen, hi, ?_⟩))
      rw [(runRequest_answer hi _).1, diagnose_eq] at h
      exact h
  · cases h

end Sys2Proof.Machine
end

