-- ==== Sys2Proof/Laws/Handlers.lean ====
section
/-! SUPPORT. Spec lemmas of the handlers' bodies (spec/44_function_handlers.md): what each answers on operands in range, in what
order it refuses, what the data bytes of an answer are, and what a run of writes leaves. -/

namespace Sys2Proof.Machine

/-! ### Reads -/

/-- `ReadBits` on a quantity in range whose answer fits (R191). -/
theorem readBits_of_inRange (cells : Cells Bool) {cap txCap : Nat} {start qty : Word} (h1 : 1 ≤ qty.toNat) (h2 : qty.toNat ≤ 2000)
    (h3 : start.toNat + qty.toNat ≤ cap) (h4 : 5 + (qty.toNat + 7) / 8 ≤ txCap) :
    readBits cells cap txCap start qty =
      .success (BitVec.ofNat 8 (ceil8 qty.toNat) :: packBits (readRun unlistedBit cells start.toNat qty.toNat)) := by
  unfold readBits
  rw [if_neg (by omega), if_neg (by simp [maxRdBits]; omega), if_neg (by simp [rangeOk]; omega), if_neg (by simp [ceil8]; omega)]

/-- `ReadRegs` on a quantity in range whose answer fits (R192). -/
theorem readRegs_of_inRange (cells : Cells Word) {cap txCap : Nat} {start qty : Word} (h1 : 1 ≤ qty.toNat) (h2 : qty.toNat ≤ 125)
    (h3 : start.toNat + qty.toNat ≤ cap) (h4 : 5 + 2 * qty.toNat ≤ txCap) :
    readRegs cells cap txCap start qty =
      .success (BitVec.ofNat 8 (2 * qty.toNat) :: regBytes (readRun unlistedWord cells start.toNat qty.toNat)) := by
  unfold readRegs
  rw [if_neg (by omega), if_neg (by simp [maxRdRegs]; omega), if_neg (by simp [rangeOk]; omega), if_neg (by omega)]

/-- When `ReadBits` refuses, in order (R190, R191). -/
theorem readBits_refuses (cells : Cells Bool) (cap txCap : Nat) (start qty : Word) :
    (cap ≤ start.toNat → readBits cells cap txCap start qty = .exception .illegalDataAddress) ∧
    (start.toNat < cap → qty.toNat = 0 ∨ 2000 < qty.toNat → readBits cells cap txCap start qty = .exception .illegalDataValue) ∧
    (start.toNat < cap → 1 ≤ qty.toNat → qty.toNat ≤ 2000 → cap < start.toNat + qty.toNat →
      readBits cells cap txCap start qty = .exception .illegalDataAddress) ∧
    (start.toNat < cap → 1 ≤ qty.toNat → qty.toNat ≤ 2000 → start.toNat + qty.toNat ≤ cap → txCap < 5 + (qty.toNat + 7) / 8 →
      readBits cells cap txCap start qty = .exception .illegalDataValue) := by
  unfold readBits
  refine ⟨fun h => by rw [if_pos h], fun h h' => ?_, fun h h1 h2 h3 => ?_, fun h h1 h2 h3 h4 => ?_⟩
  · rw [if_neg (by omega), if_pos (by simp [maxRdBits]; omega)]
  · rw [if_neg (by omega), if_neg (by simp [maxRdBits]; omega), if_pos (by simp [rangeOk]; omega)]
  · rw [if_neg (by omega), if_neg (by simp [maxRdBits]; omega), if_neg (by simp [rangeOk]; omega), if_pos (by simp [ceil8]; omega)]

/-- When `ReadRegs` refuses, in order (R190, R192). -/
theorem readRegs_refuses (cells : Cells Word) (cap txCap : Nat) (start qty : Word) :
    (cap ≤ start.toNat → readRegs cells cap txCap start qty = .exception .illegalDataAddress) ∧
    (start.toNat < cap → qty.toNat = 0 ∨ 125 < qty.toNat → readRegs cells cap txCap start qty = .exception .illegalDataValue) ∧
    (start.toNat < cap → 1 ≤ qty.toNat → qty.toNat ≤ 125 → cap < start.toNat + qty.toNat →
      readRegs cells cap txCap start qty = .exception .illegalDataAddress) ∧
    (start.toNat < cap → 1 ≤ qty.toNat → qty.toNat ≤ 125 → start.toNat + qty.toNat ≤ cap → txCap < 5 + 2 * qty.toNat →
      readRegs cells cap txCap start qty = .exception .illegalDataValue) := by
  unfold readRegs
  refine ⟨fun h => by rw [if_pos h], fun h h' => ?_, fun h h1 h2 h3 => ?_, fun h h1 h2 h3 h4 => ?_⟩
  · rw [if_neg (by omega), if_pos (by simp [maxRdRegs]; omega)]
  · rw [if_neg (by omega), if_neg (by simp [maxRdRegs]; omega), if_pos (by simp [rangeOk]; omega)]
  · rw [if_neg (by omega), if_neg (by simp [maxRdRegs]; omega), if_neg (by simp [rangeOk]; omega), if_pos h4]

/-- The data bytes of a coil or discrete-input read, bit by bit (R58). -/
theorem packBits_readRun (cells : Cells Bool) (start qty : Nat) :
    (packBits (readRun unlistedBit cells start qty)).length = (qty + 7) / 8 ∧
    ∀ i < 8 * (packBits (readRun unlistedBit cells start qty)).length,
      ((packBits (readRun unlistedBit cells start qty)).getD (i / 8) 0).getLsbD (i % 8) =
        (decide (i < qty) && cellRead false cells (start + i)) := by
  refine ⟨by simp [ceil8], fun i _ => ?_⟩
  have := packedBit_packBits (readRun unlistedBit cells start qty) i
  unfold packedBit at this
  rw [this]
  by_cases h : i < qty
  · simp [h, readRun]
  · simp [h, readRun]

/-- The data bytes of a register read, word by word (R56). -/
theorem regBytes_readRun (cells : Cells Word) (start qty : Nat) :
    (regBytes (readRun unlistedWord cells start qty)).length = 2 * qty ∧
    ∀ k < qty, (regBytes (readRun unlistedWord cells start qty)).getD (2 * k) 0 = (cellRead 0 cells (start + k) >>> 8).setWidth 8 ∧
      (regBytes (readRun unlistedWord cells start qty)).getD (2 * k + 1) 0 = (cellRead 0 cells (start + k)).setWidth 8 := by
  refine ⟨by simp, fun k hk => ?_⟩
  have := dataWord_regBytes (readRun unlistedWord cells start qty) k (by simpa using hk)
  unfold dataWord at this
  have e : (readRun unlistedWord cells start qty).getD k 0 = cellRead 0 cells (start + k) := by
    simp [readRun, hk]
  rw [e] at this
  rw [← this]
  exact ⟨(hiByte_be16 _ _).symm, (loByte_be16 _ _).symm⟩

/-! ### Answers and writes -/

/-- A handler that leaves the store and replies with an exception answers with the A-EXC frame (R92). -/
theorem answersWith_exception {i : Instr} {s : State} {fc : Byte} {h : Store × Reply} {code : ExceptionCode} (hs : s.dispPhase = .ready)
    (e : exec i s = answer fc h s) (hh : h = (s.store, .exception code)) : AnswersWith i s s.store (excFrame s fc code.byte) := by
  subst hh
  exact answersWith_of_answer hs e

/-- `WriteMultipleCoils` on operands in range (R199). -/
theorem writeMultipleCoils_of_inRange {c : Config} {m : Store} {start qty : Word} {bc : Byte} {data : List Byte} (h1 : 1 ≤ qty.toNat)
    (h2 : qty.toNat ≤ 1968) (h3 : start.toNat + qty.toNat ≤ c.nCoils) (h4 : bc.toNat = (qty.toNat + 7) / 8) (h5 : bc.toNat ≤ data.length) :
    writeMultipleCoils c m start qty bc data =
      (memWriteRun m start.toNat ((unpackBits data qty.toNat).map .coil), .success (echoFields start qty)) := by
  unfold writeMultipleCoils
  rw [if_neg (by omega), if_neg (by simp [maxWrCoils]; omega), if_neg (by simp [rangeOk]; omega), if_neg (by simp [ceil8]; omega), if_neg (by omega)]

/-- `WriteMultipleRegisters` on operands in range (R200). -/
theorem writeMultipleRegisters_of_inRange {c : Config} {m : Store} {start qty : Word} {bc : Byte} {data : List Byte} (h1 : 1 ≤ qty.toNat)
    (h2 : qty.toNat ≤ 123) (h3 : start.toNat + qty.toNat ≤ c.nHr) (h4 : bc.toNat = 2 * qty.toNat) (h5 : bc.toNat ≤ data.length) :
    writeMultipleRegisters c m start qty bc data =
      (memWriteRun m start.toNat ((dataWords data qty.toNat).map .hr), .success (echoFields start qty)) := by
  unfold writeMultipleRegisters
  rw [if_neg (by omega), if_neg (by simp [maxWrRegs]; omega), if_neg (by simp [rangeOk]; omega), if_neg (by omega), if_neg (by omega)]

/-- What a run of coil writes leaves (R199). -/
theorem memRead_coilRun {c : Config} {m : Store} (hm : Memory.wf c m) {start qty : Nat} (h3 : start + qty ≤ c.nCoils) (data : List Byte) :
    (∀ k < qty, memRead (memWriteRun m start ((unpackBits data qty).map .coil)) .coil (start + k) = .coil ((data.getD (k / 8) 0).getLsbD (k % 8))) ∧
    ∀ sp x, sp ≠ .coil ∨ x < start ∨ start + qty ≤ x → memRead (memWriteRun m start ((unpackBits data qty).map .coil)) sp x = memRead m sp x := by
  have hv : ∀ v ∈ (unpackBits data qty).map Item.coil, v.space = .coil := List.forall_mem_map.mpr fun _ _ => rfl
  constructor
  · intro k hk
    rw [memRead_memWriteRun_same hm hv (by simpa [Config.capacity] using h3) (by simpa using hk)]
    simp [unpackBits, packedBit]
  · intro sp x h
    exact memRead_memWriteRun_other m _ hv (by simpa using h)

/-- A run of writes repeated changes nothing (R62). -/
theorem memWriteRun_again {c : Config} {m : Store} {sp : Space} {a : Nat} {vs : List Item} (hm : Memory.wf c m)
    (hv : ∀ v ∈ vs, v.space = sp) (hc : a + vs.length ≤ c.capacity sp) :
    memWriteRun (memWriteRun m a vs) a vs = memWriteRun m a vs := by
  have w1 := memoryWf_memWriteRun hm hv hc
  refine store_ext (memoryWf_memWriteRun w1 hv hc) w1 fun sp' x => ?_
  by_cases h : sp' ≠ sp ∨ x < a ∨ a + vs.length ≤ x
  · exact memRead_memWriteRun_other _ vs hv h
  · have h' : sp' = sp ∧ a ≤ x ∧ x < a + vs.length := by
      refine ⟨by tauto, ?_, ?_⟩ <;> · by_contra hh; apply h; right; omega
    obtain ⟨rfl, h1, h2⟩ := h'
    obtain ⟨i, rfl⟩ := Nat.exists_eq_add_of_le h1
    rw [memRead_memWriteRun_same w1 hv hc (i := i) (by omega), memRead_memWriteRun_same hm hv hc (i := i) (by omega)]

end Sys2Proof.Machine
end

