-- ==== Sys2Proof/Laws/Assembler.lean ====
section
/-! SUPPORT. Spec lemmas of the frame assembler, the timer and the outside's events: what each operation leaves, what each event
never changes, and how scripts of events compose. -/

namespace Sys2Proof.Machine

/-! ### The receive side (R141 to R144) -/

theorem discardStale_received (s : State) : (discardStale s).received = if s.midFired then [] else s.received := by
  unfold discardStale State.received
  split <;> simp [*]

/-- Cutting what is already cut before a cut changes nothing (R142: a full accumulator drops bytes). -/
theorem take_take_append {α : Type} (n : Nat) (l r : List α) : (l.take n ++ r).take n = (l ++ r).take n := by
  simp only [List.take_append, List.take_take, List.length_take, Nat.min_self]
  congr 2
  omega

theorem accumulate_rxLen (b : Byte) {s : State} (h : s.rxLen ≤ s.cfg.rxCap) :
    (accumulate b s).rxLen = min (s.rxLen + 1) s.cfg.rxCap := by
  unfold accumulate
  split <;> (try dsimp only) <;> omega

theorem accumulate_rxBuf_length (b : Byte) (s : State) : (accumulate b s).rxBuf.length = s.rxBuf.length := by
  unfold accumulate
  split <;> simp

/-- The bytes held after one more (R141, R142). -/
theorem accumulate_received (b : Byte) {s : State} (hb : s.rxBuf.length = s.cfg.rxCap) (h : s.rxLen ≤ s.cfg.rxCap) :
    (accumulate b s).received = (s.received ++ [b]).take s.cfg.rxCap := by
  unfold accumulate State.received
  split
  · rw [List.take_of_length_le (l := _ ++ _) (by simp; omega)]
    apply List.ext_getElem?
    intro i
    grind
  · have e : s.rxLen = s.cfg.rxCap := by omega
    rw [e, take_take_append, List.take_append_of_le_length (by omega)]

/-- The frame boundary, all of it (R143, R144). -/
theorem endOfFrame_eq (s : State) : endOfFrame s = { s with
    mbBuf := if s.rxLen = 0 then s.mbBuf else overlay s.received s.mbBuf
    mbLen := if s.rxLen = 0 then s.mbLen else s.rxLen
    rxLen := 0
    faState := .idle } := by
  unfold endOfFrame
  rcases Nat.eq_zero_or_pos s.rxLen with h | h
  · simp [h]
  · simp [h, Nat.ne_of_gt h]

theorem endOfFrame_mailbox {s : State} (h : s.rxLen ≤ s.rxBuf.length) :
    (endOfFrame s).mailbox = if s.rxLen = 0 then s.mailbox else s.received := by
  have hl : s.received.length = s.rxLen := by simp [State.received]; omega
  rw [endOfFrame_eq]
  unfold State.mailbox
  dsimp only
  split
  · rfl
  · conv => lhs; rw [← hl]
    exact overlay_take _ _

/-! ### The timer's step (R123 to R126, R129) -/

theorem execTick_halted {s : State} (h : s.timRun = false) : execTick s = .next s := by simp [execTick, h]

theorem execTick_below {s : State} (h : s.timRun = true) (hc : s.timCount + 1 ≠ s.cfg.t35Ticks) :
    execTick s = .next (midTimeout (countTick s)) := by
  have e : (midTimeout (countTick s)).timCount ≠ (midTimeout (countTick s)).cfg.t35Ticks := by
    unfold midTimeout
    split <;> simpa using hc
  unfold execTick endTimeout
  rw [if_pos h, if_neg e]

theorem execTick_end {s : State} (h : s.timRun = true) (hc : s.timCount + 1 = s.cfg.t35Ticks)
    (ht : s.cfg.t15Ticks < s.cfg.t35Ticks) :
    execTick s = .next (txEndTimeoutGate (endOfFrame (fireEnd (countTick s)))) := by
  have e : midTimeout (countTick s) = countTick s := by
    unfold midTimeout
    exact if_neg (by simp; omega)
  unfold execTick endTimeout
  rw [if_pos h, e, if_pos (by simpa using hc)]

/-! ### The transmit side (R146 to R151) -/

/-- `write` of a frame that fits: what is filled, and which of the three branches is taken. -/
theorem faWrite_eq {bytes : List Byte} {s : State} (h0 : bytes ≠ []) (hc : bytes.length ≤ s.cfg.txCap) :
    faWrite bytes s = (bytes.length,
      let t := { s with txBuf := overlay bytes s.txBuf, txLen := bytes.length, txCur := 0 }
      if s.txState ≠ .txActive ∧ s.endFired = true ∧ s.txInflight = false then txArm t else { t with txState := .txPending }) := by
  have e : bytes.take s.cfg.txCap = bytes := List.take_of_length_le hc
  unfold faWrite fillTx
  rw [if_neg (by simpa using h0), e]
  dsimp only
  split <;> split <;> simp_all

/-! ### What each event leaves alone (R233) -/

theorem execRxByte_frame {b : Byte} {s t : State} (h : execRxByte b s = .next t) : t = { s with
    timCount := t.timCount, timRun := t.timRun, midFired := t.midFired, endFired := t.endFired, faState := t.faState,
    rxBuf := t.rxBuf, rxLen := t.rxLen } := by
  have e := Host.Outcome.next.inj h
  subst e
  unfold accumulate discardStale
  split <;> split <;> rfl

theorem execTxDone_frame {s t : State} (h : execTxDone s = .next t) : t = { s with
    timCount := t.timCount, timRun := t.timRun, midFired := t.midFired, endFired := t.endFired,
    txCur := t.txCur, txState := t.txState, txInflight := t.txInflight, outputs := t.outputs } := by
  unfold execTxDone at h
  split at h
  case isFalse => cases h
  have e := Host.Outcome.next.inj h
  subst e
  unfold txAdvance
  split
  · split <;> rfl
  · rfl

theorem execTick_frame {s t : State} (h : execTick s = .next t) : t = { s with
    timCount := t.timCount, timRun := t.timRun, midFired := t.midFired, endFired := t.endFired, faState := t.faState,
    rxLen := t.rxLen, mbBuf := t.mbBuf, mbLen := t.mbLen, txCur := t.txCur, txState := t.txState,
    txInflight := t.txInflight, outputs := t.outputs } := by
  have e := Host.Outcome.next.inj h
  subst e
  unfold endTimeout midTimeout txEndTimeoutGate endOfFrame
  split
  · split <;> split <;> (try split) <;> (try split) <;> rfl
  · rfl

/-- A request, however it answers, leaves the input spaces and every element but the store and the dispatcher's output. -/
theorem answer_frame {fc : Byte} {h : Store × Reply} {s t : State} (ht : answer fc h s = .next t) :
    t = { s with store := h.1, dispOut := t.dispOut, dispOutLen := t.dispOutLen, dispPhase := .holding } := by
  obtain ⟨-, rfl⟩ := answer_next ht
  rfl

theorem execDispatch_changes {s t : State} (h : exec .dispatch s = .next t) :
    t = { s with
      mbLen := t.mbLen, store := t.store, dispPhase := t.dispPhase, dispOut := t.dispOut, dispOutLen := t.dispOutLen,
      outputs := t.outputs } ∧
    t.store.di = s.store.di ∧ t.store.ir = s.store.ir := by
  rcases execDispatch_next h with ⟨-, ⟨-, rfl⟩ | rfl | rfl | ⟨i, -, hd, hi⟩⟩
  · simp
  · simp
  · simp
  · obtain ⟨-, r, e, hr⟩ := runRequest_answer hd { s with mbLen := 0, outputs := s.outputs ++ diagOutputs s s.mailbox }
    rw [e] at hi
    have hf := answer_frame hi
    rcases hr with ⟨e1, -⟩ | ⟨-, sp, hs, e1⟩
    · rw [hf, e1]
      simp
    · rw [hf]
      exact ⟨rfl, e1.others.1 (by rcases hs with rfl | rfl <;> simp), e1.others.2 (by rcases hs with rfl | rfl <;> simp)⟩

theorem execEmit_frame {s t : State} (h : execEmit s = .next t) : t = { s with
    txBuf := t.txBuf, txLen := t.txLen, txCur := t.txCur, txState := t.txState, txInflight := t.txInflight,
    dispPhase := .ready, dispOutLen := 0, outputs := t.outputs } := by
  unfold execEmit at h
  split at h
  case isFalse => cases h
  have e := Host.Outcome.next.inj h
  subst e
  unfold faWrite
  split
  · rfl
  · dsimp only
    split
    · rfl
    · split <;> rfl

theorem execHostRead_next {sp : Space} {a : Word} {s t : State} (h : execHostRead sp a s = .next t) :
    a.toNat < s.cfg.capacity sp ∧ t = s.emitted (.hostValue (memRead s.store sp a.toNat)) := by
  unfold execHostRead at h
  split at h <;> cases h
  exact ⟨‹_›, rfl⟩

theorem execHostWrite_next {a : Word} {v : Item} {s t : State} (h : execHostWrite a v s = .next t) :
    a.toNat < s.cfg.capacity v.space ∧ t = { s with store := memWrite s.store a.toNat v } := by
  unfold execHostWrite at h
  split at h <;> cases h
  exact ⟨‹_›, rfl⟩

theorem execReset_next {s t : State} (h : execReset s = .next t) :
    legalConfig s.cfgPins = true ∧ t = { State.afterReset s.cfgPins with input := s.input, outputs := s.outputs } := by
  unfold execReset at h
  split at h <;> cases h
  exact ⟨‹_›, rfl⟩

/-! ### One step (R7, R9, R254) -/

/-- All a step can do, if it answers: nothing with no event to come, or the admitted event's instruction. -/
theorem step_next {s t : State} (h : step s = .next t) :
    (s.input = [] ∧ t = s) ∨
    ∃ e rest, s.input = e :: rest ∧ e.admitted s ∧ exec e.instr { s with input := rest } = .next t := by
  unfold step at h
  split at h
  · exact .inl ⟨‹_›, (Host.Outcome.next.inj h).symm⟩
  · unfold takeEvent at h
    split at h
    · exact .inr ⟨_, _, ‹_›, ‹_›, h⟩
    · split at h <;> cases h

/-! ### Scripts (R101, R102) -/

theorem play_append (xs ys : List Event) (s : State) :
    play (xs ++ ys) s = match play xs s with
      | .next t => play ys t
      | .fault r => .fault r
      | .refused r => .refused r := by
  induction xs generalizing s with
  | nil => rfl
  | cons e es ih =>
    simp only [List.cons_append, play]
    cases exec e.instr s with
    | next t => exact ih t
    | fault r => rfl
    | refused r => rfl

theorem play_append_next {xs ys : List Event} {s t : State} (h : play xs s = .next t) :
    play (xs ++ ys) s = play ys t := by
  rw [play_append, h]

theorem silence_succ (k : Nat) : silence (k + 1) = silence k ++ [.tick] := List.replicate_succ'

end Sys2Proof.Machine
end

