-- ==== Sys2Proof/Laws/PerInstr.lean ====
section
/-! SUPPORT. Per instruction: the encoding of a well-formed request begins with its function code and carries that code's fixed
fields (R83, R88, R93); an event has no encoding (R100). -/

namespace Sys2Proof.Laws.EncodedHead

/-- If the instruction has bytes, the first is its function code and at least the code's fixed fields follow. -/
def Statement (i : Instr) : Prop :=
  i.wellFormed = true → ∀ bytes, encode i = some bytes →
    ∃ fc rest, bytes = fc :: rest ∧ i.functionCode = some fc ∧ fixedFields fc ≤ rest.length

theorem rdcoil (start qty : Word) : Statement (.rdcoil start qty) := by
  rintro - _ ⟨⟩; exact ⟨_, _, rfl, rfl, by simp [fixedFields, knownCodes]⟩

theorem rddi (start qty : Word) : Statement (.rddi start qty) := by
  rintro - _ ⟨⟩; exact ⟨_, _, rfl, rfl, by simp [fixedFields, knownCodes]⟩

theorem rdhr (start qty : Word) : Statement (.rdhr start qty) := by
  rintro - _ ⟨⟩; exact ⟨_, _, rfl, rfl, by simp [fixedFields, knownCodes]⟩

theorem rdir (start qty : Word) : Statement (.rdir start qty) := by
  rintro - _ ⟨⟩; exact ⟨_, _, rfl, rfl, by simp [fixedFields, knownCodes]⟩

theorem wrcoil (a v : Word) : Statement (.wrcoil a v) := by
  rintro - _ ⟨⟩; exact ⟨_, _, rfl, rfl, by simp [fixedFields, knownCodes]⟩

theorem wrhr (a v : Word) : Statement (.wrhr a v) := by
  rintro - _ ⟨⟩; exact ⟨_, _, rfl, rfl, by simp [fixedFields, knownCodes]⟩

theorem wrcoils (start qty : Word) (bc : Byte) (data : List Byte) : Statement (.wrcoils start qty bc data) := by
  rintro - _ ⟨⟩; exact ⟨_, _, rfl, rfl, by simp [fixedFields]⟩

theorem wrhrs (start qty : Word) (bc : Byte) (data : List Byte) : Statement (.wrhrs start qty bc data) := by
  rintro - _ ⟨⟩; exact ⟨_, _, rfl, rfl, by simp [fixedFields]⟩

theorem illfn (fc : Byte) : Statement (.illfn fc) := by
  rintro h _ ⟨⟩
  have hk : fc ∉ knownCodes := by simpa [Instr.wellFormed] using h
  refine ⟨_, _, rfl, rfl, ?_⟩
  have h2 : fc ≠ 0x0F ∧ fc ≠ 0x10 := ⟨by rintro rfl; exact hk (by decide), by rintro rfl; exact hk (by decide)⟩
  rw [fixedFields, if_neg (by tauto), if_neg hk]
  exact Nat.zero_le _

theorem rxByte (b : Byte) : Statement (.rxByte b) := by rintro - _ ⟨⟩

theorem txDone : Statement .txDone := by rintro - _ ⟨⟩

theorem tick : Statement .tick := by rintro - _ ⟨⟩

theorem dispatch : Statement .dispatch := by rintro - _ ⟨⟩

theorem emit : Statement .emit := by rintro - _ ⟨⟩

theorem hostRead (sp : Space) (a : Word) : Statement (.hostRead sp a) := by rintro - _ ⟨⟩

theorem hostWrite (a : Word) (v : Item) : Statement (.hostWrite a v) := by rintro - _ ⟨⟩

theorem reset : Statement .reset := by rintro - _ ⟨⟩

end Sys2Proof.Laws.EncodedHead
end

