-- ==== Sys2Proof/Tests/Slice0.lean ====
section
/-! SUPPORT. The model's own tests. Expected values are those of spec/95_test_vectors.md (V<n>, named in each comment) or of the
rule named, never the model's own answers. Then, for each obligation with hypotheses, a concrete state and operands that meet them. -/

namespace Sys2Proof.Tests

-- Each test is checked before the next is read: otherwise dozens of them wait for the kernel at once, a thread each.
set_option Elab.async false

open Sys2Proof.Machine

/-! ### Small states -/

/-- The vectors' configuration (95_test_vectors.md section 0), with buffers of 32 bytes so that states stay small. -/
def vectorConfig : Config := { Config.reference with
  rxCap := 32, txCap := 32, storeInit := { Store.zero with hr := [(0, 0x000A), (1, 0x000B)] } }

/-- After RESET (V10, V62). -/
def fresh : State := State.afterReset vectorConfig

/-- After T35_TICKS of silence (V10). -/
def silent : State := { fresh with timCount := 35, timRun := false, midFired := true, endFired := true }

/-- A frame in the mailbox (V29). -/
def pending (f : List Byte) : State := { silent with mbBuf := overlay f silent.mbBuf, mbLen := f.length }

/-- Bytes accumulated, and the timer at `n` below T35_TICKS. -/
def receiving (f : List Byte) (n : Nat) : State := { fresh with
  timCount := n, midFired := decide (15 ≤ n), rxBuf := overlay f fresh.rxBuf, rxLen := f.length, faState := .accumulating }

/-- V24's `r1`. -/
def r1 : List Byte := [0x11, 0x03, 0x04, 0x00, 0x0A, 0x00, 0x0B, 0x8A, 0x37]

/-- V30's request. -/
def f1 : List Byte := [0x11, 0x03, 0x00, 0x00, 0x00, 0x02, 0xC6, 0x9B]

/-- `r1` held for EMIT. -/
def holding (s : State) : State := holdFrame r1 s

/-- `r1` being sent, its byte `k` in flight. -/
def sending (k : Nat) : State := { silent with
  txBuf := overlay r1 silent.txBuf, txLen := 9, txCur := k, txState := .txActive, txInflight := true }

/-- A mailbox holding `f`, DISPATCH run: the frame held for EMIT, none if dropped. -/
def answerTo (f : List Byte) : Option (List Byte) := (nextOf (exec .dispatch (pending f))).map State.heldFrame

/-- The store after DISPATCH on `f`. -/
def storeAfter (f : List Byte) : Option Store := (nextOf (exec .dispatch (pending f))).map State.store

/-! ### WellFormed refuses what no frame stands for -/

theorem test_wellFormed_refuses_surplus_coil_data : (Instr.wrcoils 0 8 1 [0xFF, 0xFF]).wellFormed = false := by decide

theorem test_wellFormed_refuses_surplus_register_data : (Instr.wrhrs 0 1 2 [0, 1, 2]).wellFormed = false := by decide

theorem test_wellFormed_refuses_known_illfn : knownCodes.all (fun fc => (Instr.illfn fc).wellFormed = false) := by decide

theorem test_wellFormed_accepts_short_data : (Instr.wrhrs 0 1 2 [0x00]).wellFormed = true := by decide

/-! ### Decoding, by words written out from R84 to R87 and the frames of the vectors -/

/-- V38. -/
theorem test_decode_rdcoil : decode [0x01, 0x00, 0x00, 0x00, 0x0A] = .request (.rdcoil 0 10) := by decide
/-- V43. -/
theorem test_decode_rddi : decode [0x02, 0xFF, 0xFF, 0x00, 0x01] = .request (.rddi 0xFFFF 1) := by decide
/-- V35. -/
theorem test_decode_rdhr : decode [0x03, 0x00, 0x7E, 0x00, 0x03] = .request (.rdhr 126 3) := by decide
/-- V45. -/
theorem test_decode_rdir : decode [0x04, 0x00, 0x00, 0x00, 0x0A] = .request (.rdir 0 10) := by decide
/-- V46. -/
theorem test_decode_wrcoil : decode [0x05, 0x00, 0x05, 0xFF, 0x00] = .request (.wrcoil 5 0xFF00) := by decide
/-- V50. -/
theorem test_decode_wrhr : decode [0x06, 0x00, 0x01, 0x00, 0x03] = .request (.wrhr 1 3) := by decide
/-- V53. -/
theorem test_decode_wrcoils : decode [0x0F, 0x00, 0x00, 0x00, 0x0A, 0x02, 0xCD, 0x01] =
    .request (.wrcoils 0 10 2 [0xCD, 0x01]) := by decide
/-- V61. -/
theorem test_decode_wrhrs : decode [0x10, 0x00, 0x7F, 0x00, 0x02, 0x04, 0x00, 0x01, 0x00, 0x02] =
    .request (.wrhrs 127 2 4 [0x00, 0x01, 0x00, 0x02]) := by decide
/-- V29: a code with bit 7 set is an illegal code like any other. -/
theorem test_decode_illfn : decode [0x81, 0x00, 0x00, 0x00, 0x01] = .request (.illfn 0x81) := by decide
/-- V44, V57 and R98: one byte short of the fixed fields. -/
theorem test_decode_rejects_short :
    decode [0x01, 0x00, 0x00, 0x00] = .rejected (.missingFields 0x01) ∧
    decode [0x0F, 0x00, 0x00, 0x00, 0x0A] = .rejected (.missingFields 0x0F) ∧ decode [] = .rejected .noFunctionCode := by decide
/-- V53's PDU. -/
theorem test_encode_wrcoils : encode (.wrcoils 0 10 2 [0xCD, 0x01]) =
    some [0x0F, 0x00, 0x00, 0x00, 0x0A, 0x02, 0xCD, 0x01] := by decide
/-- The table's rows match on the function-code byte; the bytes after it are zeros (log 10). -/
theorem test_decodeTableWord : decodeTableWord 8 0x03 = some (.rdhr 0 0) ∧ decodeTableWord 8 0x10 = some (.wrhrs 0 0 0 []) ∧
    decodeTableWord 8 0x00 = some (.illfn 0) ∧ decodeTableWord 40 0x0200010003 = some (.rdhr 0x0001 0x0002) := by decide +kernel

/-! ### The CRC engine (V2, V7, V8, V9) -/

theorem test_crc_values :
    crc16 [] = 0xFFFF ∧ crc16 [0x00] = 0x40BF ∧ crc16 [0xFF] = 0x00FF ∧ crc16 [0x01] = 0x807E ∧ crc16 [0x80] = 0xE0BE ∧
    crc16 [0x11, 0x03, 0x00, 0x00, 0x00, 0x02] = 0x9BC6 ∧ crc16 f1 = 0 ∧
    crc16 [0x31, 0x32, 0x33, 0x34, 0x35, 0x36, 0x37, 0x38, 0x39] = 0x4B37 := by decide +kernel

theorem test_crc_table_entries :
    crcTable.getD 0 0 = 0x0000 ∧ crcTable.getD 1 0 = 0xC0C1 ∧ crcTable.getD 2 0 = 0xC181 ∧ crcTable.getD 0x80 0 = 0xA001 ∧
    crcTable.getD 0xC0 0 = 0x5000 ∧ crcTable.getD 0xFF 0 = 0x4040 := by decide +kernel

theorem test_crc_is_low_byte_first : crcPasses f1 = true ∧
    crcPasses [0x11, 0x03, 0x00, 0x00, 0x00, 0x02, 0x9B, 0xC6] = false := by decide +kernel

/-! ### The requests, through DISPATCH -/

/-- V38, V39. -/
theorem test_rdcoil : answerTo [0x11, 0x01, 0x00, 0x00, 0x00, 0x0A, 0xBE, 0x9D] =
      some [0x11, 0x01, 0x02, 0x00, 0x00, 0x78, 0x3F] ∧
    answerTo [0x11, 0x01, 0x00, 0x00, 0x07, 0xD1, 0xFC, 0xF6] = some [0x11, 0x81, 0x03, 0x01, 0x94] := by decide +kernel
/-- P2's second answer: the pattern of V53 read back. -/
theorem test_rdcoil_packs_low_bit_first :
    (nextOf (exec (.rdcoil 0 10) { silent with store := { silent.store with
        coil := [(0, true), (2, true), (3, true), (6, true), (7, true), (8, true)] } })).map State.heldFrame =
      some [0x11, 0x01, 0x02, 0xCD, 0x01, 0xED, 0x6F] := by decide +kernel
/-- V43. -/
theorem test_rddi : answerTo [0x11, 0x02, 0xFF, 0xFF, 0x00, 0x01, 0xBB, 0x7E] = some [0x11, 0x82, 0x02, 0xC0, 0xA4] := by
  decide +kernel
/-- V30, V35. -/
theorem test_rdhr : answerTo f1 = some r1 ∧
    answerTo [0x11, 0x03, 0x00, 0x7E, 0x00, 0x03, 0x67, 0x43] = some [0x11, 0x83, 0x02, 0xC1, 0x34] := by decide +kernel
/-- V32, V33: the quantity's bounds. -/
theorem test_rdhr_quantity :
    answerTo [0x11, 0x03, 0x00, 0x00, 0x00, 0x00, 0x47, 0x5A] = some [0x11, 0x83, 0x03, 0x00, 0xF4] ∧
    answerTo [0x11, 0x03, 0x00, 0x00, 0x00, 0x7E, 0xC7, 0x7A] = some [0x11, 0x83, 0x03, 0x00, 0xF4] := by decide +kernel
/-- V45. -/
theorem test_rdir : answerTo [0x11, 0x04, 0x00, 0x00, 0x00, 0x0A, 0x72, 0x9D] =
    some ([0x11, 0x04, 0x14] ++ List.replicate 20 0x00 ++ [0x58, 0x8D]) := by decide +kernel
/-- V46. -/
theorem test_wrcoil : answerTo [0x11, 0x05, 0x00, 0x05, 0xFF, 0x00, 0x9E, 0xAB] =
      some [0x11, 0x05, 0x00, 0x05, 0xFF, 0x00, 0x9E, 0xAB] ∧
    storeAfter [0x11, 0x05, 0x00, 0x05, 0xFF, 0x00, 0x9E, 0xAB] = some { silent.store with coil := [(5, true)] } := by
  decide +kernel
/-- V48. -/
theorem test_wrcoil_illegal_value : answerTo [0x11, 0x05, 0x00, 0x05, 0x00, 0xFF, 0x9F, 0x1B] =
    some [0x11, 0x85, 0x03, 0x03, 0x54] := by decide +kernel
/-- V50, V51. -/
theorem test_wrhr : storeAfter [0x11, 0x06, 0x00, 0x01, 0x00, 0x03, 0x9A, 0x9B] =
      some { silent.store with hr := [(0, 0x000A), (1, 0x0003)] } ∧
    answerTo [0x11, 0x06, 0x00, 0x80, 0x00, 0x03, 0xCA, 0xB3] = some [0x11, 0x86, 0x02, 0xC2, 0x64] := by decide +kernel
/-- V53. -/
theorem test_wrcoils : answerTo [0x11, 0x0F, 0x00, 0x00, 0x00, 0x0A, 0x02, 0xCD, 0x01, 0xBD, 0xA8] =
      some [0x11, 0x0F, 0x00, 0x00, 0x00, 0x0A, 0xD7, 0x5C] ∧
    storeAfter [0x11, 0x0F, 0x00, 0x00, 0x00, 0x0A, 0x02, 0xCD, 0x01, 0xBD, 0xA8] =
      some { silent.store with coil := [(0, true), (2, true), (3, true), (6, true), (7, true), (8, true)] } := by decide +kernel
/-- V55, V56: byte count and data bytes. -/
theorem test_wrcoils_counts :
    answerTo [0x11, 0x0F, 0x00, 0x00, 0x00, 0x0A, 0x01, 0xCD, 0x9F, 0xCC] = some [0x11, 0x8F, 0x03, 0x05, 0xF4] ∧
    answerTo [0x11, 0x0F, 0x00, 0x00, 0x00, 0x0A, 0x02, 0xCD, 0x9F, 0x3C] = some [0x11, 0x8F, 0x03, 0x05, 0xF4] := by
  decide +kernel
/-- V58. -/
theorem test_wrhrs : answerTo [0x11, 0x10, 0x00, 0x00, 0x00, 0x01, 0x02, 0x00, 0x0A, 0xEB, 0x97] =
      some [0x11, 0x10, 0x00, 0x00, 0x00, 0x01, 0x03, 0x59] := by decide +kernel
/-- V59, V61. -/
theorem test_wrhrs_refused :
    answerTo [0x11, 0x10, 0x00, 0x00, 0x00, 0x01, 0x02, 0x00, 0xC1, 0xAA] = some [0x11, 0x90, 0x03, 0x0D, 0xC4] ∧
    answerTo [0x11, 0x10, 0x00, 0x7F, 0x00, 0x02, 0x04, 0x00, 0x01, 0x00, 0x02, 0x30, 0x0A] =
      some [0x11, 0x90, 0x02, 0xCC, 0x04] := by decide +kernel
/-- V29. -/
theorem test_illfn : answerTo [0x11, 0x2B, 0x0E, 0x01, 0x00, 0xB1, 0xB4] = some [0x11, 0xAB, 0x01, 0x9F, 0x35] ∧
    answerTo [0x11, 0x81, 0xCD, 0x80] = some [0x11, 0x81, 0x01, 0x80, 0x55] := by decide +kernel
/-- V29's drops: length (no DIAG), address, CRC, and V44's short PDU. -/
theorem test_dispatch_drops :
    nextOf (exec .dispatch (pending [0x11, 0x03, 0xFF])) = some { pending [0x11, 0x03, 0xFF] with mbLen := 0 } ∧
    ∀ f ∈ [[0x12, 0x03, 0x00, 0x00, 0x00, 0x02, 0xC6, 0xA8], [0x11, 0x03, 0x00, 0x00, 0x00, 0x02, 0xC6, 0x9A],
        [0x11#8, 0x01, 0x00, 0x00, 0x00, 0xD9, 0xFF]],
      nextOf (exec .dispatch (pending f)) = some { pending f with mbLen := 0, outputs := [.diag f] } := by decide +kernel

/-! ### The events -/

theorem test_events_are_their_instructions :
    [Event.rxByte 7, .txDone, .tick, .dispatch, .emit, .hostRead .hr 1, .hostWrite 1 (.hr 2), .reset].map Event.instr =
      [.rxByte 7, .txDone, .tick, .dispatch, .emit, .hostRead .hr 1, .hostWrite 1 (.hr 2), .reset] := by decide
/-- V16: a byte after a mid-timeout discards what was accumulated. -/
theorem test_rxByte_discards : (nextOf (exec (.rxByte 0x9B) (receiving [0xC6] 15))).map
    (fun t => (t.received, t.timCount, t.midFired)) = some ([0x9B], 0, false) := by decide +kernel
/-- V15: below T15_TICKS it is kept. -/
theorem test_rxByte_appends : (nextOf (exec (.rxByte 0x9B) (receiving [0xC6] 14))).map State.received =
    some [0xC6, 0x9B] := by decide +kernel
/-- V10: 14 to 15. -/
theorem test_tick_mid : (nextOf (exec .tick (receiving [0x11] 14))).map
    (fun t => (t.timCount, t.timRun, t.midFired, t.endFired)) = some (15, true, true, false) := by decide +kernel
/-- V10 and V14: 34 to 35 halts and publishes. -/
theorem test_tick_end : (nextOf (exec .tick (receiving f1 34))).map
    (fun t => (t.timRun, t.endFired, t.mailbox, t.rxLen, t.faState)) = some (false, true, f1, 0, .idle) := by decide +kernel
/-- V27: byte 1 is done, byte 2 goes out. -/
theorem test_txDone_next : (nextOf (exec .txDone (sending 1))).map (fun t => (t.txCur, t.txInflight, t.outputs)) =
    some (2, true, [.txOut 0x04]) := by decide +kernel
/-- V24: the last byte is done. -/
theorem test_txDone_last : (nextOf (exec .txDone (sending 8))).map
    (fun t => (t.txState, t.txCur, t.txInflight, t.timCount, t.timRun, t.endFired)) =
      some (.txIdle, 9, false, 0, true, false) := by decide +kernel
/-- V24 and V25: armed on a silent bus, pending otherwise. -/
theorem test_emit :
    (nextOf (exec .emit (holding silent))).map (fun t => (t.txState, t.txLen, t.txCur, t.outputs)) =
      some (.txActive, 9, 0, [.txOut 0x11]) ∧
    (nextOf (exec .emit (holding fresh))).map (fun t => (t.txState, t.txLen, t.outputs)) = some (.txPending, 9, []) := by
  decide +kernel
/-- V27: a new frame during a transmission waits, the byte in flight with it. -/
theorem test_emit_overwrites : (nextOf (exec .emit (holding (sending 2)))).map
    (fun t => (t.txState, t.txCur, t.txInflight, t.outputs)) = some (.txPending, 0, true, []) := by decide +kernel
/-- R71, on section 0's HR[1]. -/
theorem test_hostRead : (nextOf (exec (.hostRead .hr 1) fresh)).map State.outputs = some [.hostValue (.hr 0x000B)] := by
  decide +kernel
/-- R70, on a space no request can write. -/
theorem test_hostWrite : (nextOf (exec (.hostWrite 127 (.di true)) fresh)).map (fun t => t.store.di) = some [(127, true)] :=
  by decide +kernel
/-- V62: RESET with a byte in flight. -/
theorem test_reset : nextOf (exec .reset (sending 2)) = some fresh := by decide +kernel
/-- V13: the default thresholds. -/
theorem test_default_thresholds : [1, 2, 3, 10, 11].map (fun c => (defaultT15 c, defaultT35 c)) =
    [(2, 4), (3, 7), (5, 11), (15, 35), (17, 39)] := by decide
/-- R254: before the first RESET a TICK has no step, and RESET leads to the reset state. -/
theorem test_before_reset :
    nextOf (step { State.beforeReset vectorConfig with input := [.tick] }) = none ∧
    nextOf (step { State.beforeReset vectorConfig with input := [.reset, .tick] }) = some { fresh with input := [.tick] } := by
  decide +kernel
/-- A table word placed after reset runs as the next step's request (RDHR with quantity 0: exception 0x03, V32). -/
theorem test_step_runs_the_table_word : (nextOf (step (State.reset.withFetchWord 8 0x03))).map State.heldFrame =
    some [0x11, 0x83, 0x03, 0x00, 0xF4] := by decide +kernel

/-! ### Witnesses: states and operands that meet each statement's hypotheses, at the boundaries of its clauses -/

/-- `State.Inv` as one decidable proposition. -/
def Checks (s : State) : Prop :=
  (legalConfig s.cfg = true ∧ s.rxBuf.length = s.cfg.rxCap ∧ s.mbBuf.length = s.cfg.rxCap ∧ s.txBuf.length = s.cfg.txCap ∧
    s.dispOut.length = s.cfg.txCap ∧ s.rxLen ≤ s.cfg.rxCap ∧ s.mbLen ≤ s.cfg.rxCap ∧ s.txLen ≤ s.cfg.txCap) ∧
  (s.txCur ≤ s.txLen ∧ (s.faState = .accumulating ↔ 0 < s.rxLen) ∧ (s.txState = .txIdle → s.txInflight = false) ∧
    (s.txState = .txActive → s.txInflight = true ∧ s.txCur < s.txLen) ∧ (s.txState = .txPending → 0 < s.txLen)) ∧
  ((s.midFired = true ↔ s.cfg.t15Ticks ≤ s.timCount) ∧ (s.endFired = true ↔ s.timCount = s.cfg.t35Ticks) ∧
    (s.timRun = false ↔ s.timCount = s.cfg.t35Ticks) ∧ s.timCount ≤ s.cfg.t35Ticks ∧ (s.timRun = false → s.rxLen = 0)) ∧
  (s.dispPhase = .ready → s.dispOutLen = 0) ∧
  (s.dispPhase = .holding → 5 ≤ s.dispOutLen ∧ s.dispOutLen ≤ s.cfg.txCap ∧ s.heldFrame.getD 0 0 = s.cfg.localAddr ∧
    crcPasses s.heldFrame = true) ∧
  Memory.wf s.cfg s.store

theorem inv_of_checks {s : State} (h : Checks s) : s.Inv := by
  obtain ⟨⟨a1, a2, a3, a4, a5, a6, a7, a8⟩, ⟨b1, b2, b3, b4, b5⟩, ⟨c1, c2, c3, c4, c5⟩, d, e, f⟩ := h
  exact ⟨a1, a2, a3, a4, a5, a6, a7, a8, b1, b2, b3, b4, b5, c1, c2, c3, c4, c5, d,
    fun hh => ⟨(e hh).1, (e hh).2.1, (e hh).2.2.1, (e hh).2.2.2⟩, f⟩

/-- A next state found by running. -/
theorem exists_next {o : Host.Outcome State Fault Refusal} {P : State → Prop} [DecidablePred P]
    (h : (nextOf o).any (fun t => decide (P t)) = true) : ∃ t, o = .next t ∧ P t := by
  cases o with
  | next t => exact ⟨t, rfl, by simpa [nextOf] using h⟩
  | fault r => simp [nextOf] at h
  | refused r => simp [nextOf] at h

theorem inv_fresh : fresh.Inv := inv_of_checks (by unfold Checks; decide +kernel)
theorem inv_silent : silent.Inv := inv_of_checks (by unfold Checks; decide +kernel)
theorem inv_pending : (pending f1).Inv := inv_of_checks (by unfold Checks; decide +kernel)
theorem inv_receiving : (receiving f1 14).Inv ∧ (receiving f1 15).Inv ∧ (receiving f1 34).Inv :=
  ⟨inv_of_checks (by unfold Checks; decide +kernel), inv_of_checks (by unfold Checks; decide +kernel),
    inv_of_checks (by unfold Checks; decide +kernel)⟩
theorem inv_full : (receiving (List.replicate 32 0x55) 0).Inv := inv_of_checks (by unfold Checks; decide +kernel)
theorem inv_holding : (holding silent).Inv ∧ (holding fresh).Inv ∧ (holding (sending 2)).Inv :=
  ⟨inv_of_checks (by unfold Checks; decide +kernel), inv_of_checks (by unfold Checks; decide +kernel),
    inv_of_checks (by unfold Checks; decide +kernel)⟩
/-- Configurations that show the bounds of the quantities (2000 coils, a short transmit buffer). -/
def wide : State := State.afterReset { Config.reference with nCoils := 65536, nDi := 65536, nHr := 65536, nIr := 65536 }
def narrow : State := State.afterReset { Config.reference with txCap := 8 }
def illegal : State := State.afterReset { Config.reference with txCap := 7 }

theorem inv_wide : wide.Inv := inv_of_checks (by unfold Checks; decide +kernel)

theorem witness_decode_of_encode : (Instr.wrcoils 0 10 2 [0xCD, 0x01]).wellFormed = true ∧
    encode (.wrcoils 0 10 2 [0xCD, 0x01]) = some [0x0F, 0, 0, 0, 10, 2, 0xCD, 0x01] ∧
    (Instr.illfn 0x2B).wellFormed = true ∧ encode (.illfn 0x2B) = some [0x2B] := by decide

theorem witness_extra_bytes : (Instr.wrhrs 0 1 2 [0, 10]).wellFormed = true ∧
    encode (.wrhrs 0 1 2 [0, 10]) = some [0x10, 0, 0, 0, 1, 2, 0, 10] ∧
    ∀ start qty bc data, Instr.wrhrs 0 1 2 [0, 10] = .wrcoils start qty bc data ∨
      Instr.wrhrs 0 1 2 [0, 10] = .wrhrs start qty bc data → data.length = bc.toNat := by
  refine ⟨by decide, by decide, ?_⟩
  rintro start qty bc data (h | h) <;> cases h
  rfl

theorem witness_short_requests : 0x06#8 ∈ [0x01#8, 0x02#8, 0x03#8, 0x04#8, 0x05#8, 0x06#8] ∧
    decode [0x06, 0, 1, 0] = .rejected (.missingFields 0x06) ∧ decode [0x06, 0, 1, 0, 3] = .request (.wrhr 1 3) ∧
    0x0F#8 ∈ [0x0F#8, 0x10#8] ∧ decode [0x0F, 0, 0, 0, 8] = .rejected (.missingFields 0x0F) ∧
    decode [0x0F, 0, 0, 0, 8, 1] = .request (.wrcoils 0 8 1 []) ∧
    0x2B#8 ∉ [0x01#8, 0x02#8, 0x03#8, 0x04#8, 0x05#8, 0x06#8, 0x0F#8, 0x10#8] := by decide

theorem witness_decoded_bytes : decode [0x03, 0, 0, 0, 2, 0xEE] = .request (.rdhr 0 2) := by decide

theorem witness_crc_check : 2 ≤ [0x11#8, 0x81].length ∧ 0xCD#8 = (crc16 [0x11, 0x81]).setWidth 8 ∧
    0x80#8 = (crc16 [0x11, 0x81] >>> 8).setWidth 8 := by decide +kernel

theorem witness_step : fresh.input = [] ∧ ({ fresh with input := [.tick] } : State).input = .tick :: [] ∧
    fresh.hasReset = true ∧ legalConfig fresh.cfg = true ∧ illegal.hasReset = true ∧ ¬ legalConfig illegal.cfg = true ∧
    Event.tick ≠ .reset := by decide +kernel

theorem witness_before_reset : (State.beforeReset vectorConfig).hasReset = false ∧
    ({ State.beforeReset vectorConfig with input := [.tick] } : State).input = .tick :: [] ∧ Event.tick ≠ .reset ∧
    legalConfig (State.beforeReset vectorConfig).cfgPins = true ∧ ∃ t, exec .tick (State.beforeReset vectorConfig) = .next t :=
  ⟨rfl, rfl, by decide, by decide +kernel, _, rfl⟩

theorem witness_default_thresholds : legalConfig (Config.ofDefaults 0x11 1 Store.zero false) = true ∧
    Memory.wf (Config.ofDefaults 0x11 1 Store.zero false) Store.zero := by decide +kernel

theorem witness_dispatch_runs : (pending f1).dispPhase = .ready ∧ (pending f1).mbBuf.take (pending f1).mbLen = f1 ∧
    (pending f1).mbLen ≠ 0 ∧ 4 ≤ f1.length ∧ f1.getD 0 0 = (pending f1).cfg.localAddr ∧
    f1.getD (f1.length - 2) 0 = (crc16 (f1.take (f1.length - 2))).setWidth 8 ∧
    f1.getD (f1.length - 1) 0 = (crc16 (f1.take (f1.length - 2)) >>> 8).setWidth 8 ∧
    decode ((f1.take (f1.length - 2)).drop 1) = .request (.rdhr 0 2) := by decide +kernel

theorem witness_table_word : legalConfig State.reset.cfg = true ∧ decodeTableWord 8 0x03 = some (.rdhr 0 0) := by decide +kernel

theorem witness_disabled : fresh.txInflight = false ∧ (holding silent).dispPhase = .holding ∧ fresh.dispPhase = .ready ∧
    fresh.cfg.capacity .ir ≤ (128 : Word).toNat ∧ fresh.cfg.capacity (Item.di true).space ≤ (128 : Word).toNat ∧
    ¬ legalConfig illegal.cfgPins = true := by decide +kernel

theorem witness_drops : (∀ f ∈ [[], [0x11#8, 0x03, 0xFF], [0x12, 0x03, 0x00, 0xFF], [0x11, 0x03, 0, 0, 0, 2, 0xC6, 0x9A],
      [0x11, 0x01, 0, 0, 0, 0xD9, 0xFF], [0x11, 0x0F, 0, 0, 0, 0x0A, 0xD7, 0x5C]],
      (pending f).dispPhase = .ready ∧ (pending f).mbBuf.take (pending f).mbLen = f ∧ (pending f).mbLen = f.length) ∧
    [0x12#8, 0x03, 0x00, 0xFF].getD 0 0 ≠ silent.cfg.localAddr ∧
    ([0x11#8, 0x01, 0, 0, 0, 0xD9, 0xFF].getD 1 0 ∈ [0x01#8, 0x02#8, 0x03#8, 0x04#8, 0x05#8, 0x06#8]) ∧
    ([0x11#8, 0x0F, 0, 0, 0, 0x0A, 0xD7, 0x5C].getD 1 0 ∈ [0x0F#8, 0x10#8]) := by decide +kernel

theorem witness_drops_crc : ([0x11#8, 0x03, 0, 0, 0, 2, 0xC6, 0x9A].getD 6 0, [0x11#8, 0x03, 0, 0, 0, 2, 0xC6, 0x9A].getD 7 0) ≠
    ((crc16 [0x11, 0x03, 0, 0, 0, 2]).setWidth 8, (crc16 [0x11, 0x03, 0, 0, 0, 2] >>> 8).setWidth 8) := by decide +kernel

theorem witness_dispatch_answers : (pending f1).Inv ∧ (pending f1).dispPhase = .ready := ⟨inv_pending, rfl⟩

theorem witness_store_changes : ∃ t, exec .dispatch (pending [0x11, 0x05, 0x00, 0x05, 0xFF, 0x00, 0x9E, 0xAB]) = .next t ∧
    t.store ≠ (pending [0x11, 0x05, 0x00, 0x05, 0xFF, 0x00, 0x9E, 0xAB]).store :=
  exists_next (by decide +kernel)

/-- The four reads, at the largest quantity and at the last element. -/
theorem witness_reads : wide.dispPhase = .ready ∧ (2000 : Word).toNat ≤ 2000 ∧
    (63536 : Word).toNat + (2000 : Word).toNat ≤ wide.cfg.nCoils ∧ (63536 : Word).toNat + (2000 : Word).toNat ≤ wide.cfg.nDi ∧
    5 + ((2000 : Word).toNat + 7) / 8 ≤ wide.cfg.txCap ∧ (125 : Word).toNat ≤ 125 ∧
    (65411 : Word).toNat + (125 : Word).toNat ≤ wide.cfg.nHr ∧ (65411 : Word).toNat + (125 : Word).toNat ≤ wide.cfg.nIr ∧
    5 + 2 * (125 : Word).toNat ≤ wide.cfg.txCap ∧ silent.dispPhase = .ready ∧ 1 ≤ (1 : Word).toNat ∧
    (127 : Word).toNat + (1 : Word).toNat ≤ silent.cfg.nCoils := by decide

/-- The reads' refusals: start 128 of 128; quantity 0 and 2001; 127 + 2; and, with 8 bytes to answer in, 25 coils. -/
theorem witness_reads_refuse : silent.cfg.nCoils ≤ (128 : Word).toNat ∧ (127 : Word).toNat < silent.cfg.nCoils ∧
    2000 < (2001 : Word).toNat ∧ 125 < (126 : Word).toNat ∧ silent.cfg.nCoils < (127 : Word).toNat + (2 : Word).toNat ∧
    narrow.dispPhase = .ready ∧ (0 : Word).toNat + (25 : Word).toNat ≤ narrow.cfg.nCoils ∧
    narrow.cfg.txCap < 5 + ((25 : Word).toNat + 7) / 8 ∧ narrow.cfg.txCap < 5 + 2 * (2 : Word).toNat := by decide

theorem witness_writes : silent.dispPhase = .ready ∧ Memory.wf silent.cfg silent.store ∧ (127 : Word).toNat < silent.cfg.nCoils ∧
    (127 : Word).toNat < silent.cfg.nHr ∧ wide.dispPhase = .ready ∧ Memory.wf wide.cfg wide.store ∧
    (63568 : Word).toNat + (1968 : Word).toNat ≤ wide.cfg.nCoils ∧ (246 : Byte).toNat = ((1968 : Word).toNat + 7) / 8 ∧
    (246 : Byte).toNat ≤ (List.replicate 246 (0 : Byte)).length ∧
    (65413 : Word).toNat + (123 : Word).toNat ≤ wide.cfg.nHr ∧ (246 : Byte).toNat = 2 * (123 : Word).toNat := by decide +kernel

/-- The writes' refusals: address 128; value 0x00FF; quantities 1969 and 124; 127 + 2; a wrong count; a byte missing. -/
theorem witness_writes_refuse : silent.cfg.nCoils ≤ (128 : Word).toNat ∧ silent.cfg.nHr ≤ (128 : Word).toNat ∧
    (0x00FF : Word) ≠ 0xFF00 ∧ (0x00FF : Word) ≠ 0x0000 ∧ 1968 < (1969 : Word).toNat ∧ 123 < (124 : Word).toNat ∧
    silent.cfg.nCoils < (127 : Word).toNat + (2 : Word).toNat ∧ (1 : Byte).toNat ≠ ((10 : Word).toNat + 7) / 8 ∧
    [0xCD#8].length < (2 : Byte).toNat := by decide

theorem witness_illfn : silent.dispPhase = .ready := rfl

theorem witness_repeated_write : silent.Inv ∧ ∃ t, exec (.wrhr 1 3) silent = .next t := ⟨inv_silent, _, rfl⟩

theorem witness_coils_read_back : wide.Inv ∧ 1 ≤ (10 : Word).toNat ∧ (10 : Word).toNat ≤ 1968 ∧
    (65526 : Word).toNat + (10 : Word).toNat ≤ wide.cfg.nCoils ∧ 5 + ((10 : Word).toNat + 7) / 8 ≤ wide.cfg.txCap ∧
    (2 : Byte).toNat = ((10 : Word).toNat + 7) / 8 ∧ (2 : Byte).toNat ≤ [0xCD#8, 0x01].length ∧
    ∃ t u, exec (.wrcoils 65526 10 2 [0xCD, 0x01]) wide = .next t ∧
      exec (.rdcoil 65526 10) { t with dispPhase := .ready, dispOutLen := 0 } = .next u :=
  ⟨inv_wide, by decide, by decide, by decide, by decide, by decide, by decide, _, _, rfl, rfl⟩

theorem witness_rxByte : (receiving f1 15).Inv ∧ (receiving f1 14).Inv ∧ (receiving (List.replicate 32 0x55) 0).Inv :=
  ⟨inv_receiving.2.1, inv_receiving.1, inv_full⟩

theorem witness_tick : silent.Inv ∧ silent.timRun = false ∧ (receiving f1 14).Inv ∧ (receiving f1 14).timRun = true ∧
    (receiving f1 14).timCount + 1 < (receiving f1 14).cfg.t35Ticks ∧ (receiving f1 34).Inv ∧
    (receiving f1 34).timCount + 1 = (receiving f1 34).cfg.t35Ticks ∧ 0 < (receiving f1 34).rxLen :=
  ⟨inv_silent, rfl, inv_receiving.1, rfl, by decide, inv_receiving.2.2, by decide, by decide⟩

theorem witness_txDone : (sending 7).txInflight = true ∧ (sending 7).txState = .txActive ∧ (sending 7).txCur + 1 < (sending 7).txLen ∧
    (sending 8).txLen ≤ (sending 8).txCur + 1 ∧ ({ sending 2 with txState := .txPending } : State).txState ≠ .txActive := by decide

theorem witness_emit : (holding silent).Inv ∧ (holding silent).dispPhase = .holding ∧ (holding silent).endFired = true ∧
    (holding silent).txInflight = false ∧ (holding silent).txState ≠ .txActive ∧ (holding (sending 2)).Inv ∧
    (holding (sending 2)).txState = .txActive :=
  ⟨inv_holding.1, rfl, rfl, rfl, by decide, inv_holding.2.2, rfl⟩

theorem witness_silence : fresh.Inv ∧ fresh.timRun = true ∧ fresh.timCount = 0 ∧ fresh.cfg.t15Ticks ≤ 15 ∧
    34 < fresh.cfg.t35Ticks := ⟨inv_fresh, rfl, rfl, by decide, by decide⟩

theorem witness_frames : silent.Inv ∧ f1 ≠ [] ∧ 14 < silent.cfg.t15Ticks ∧ silent.midFired = true ∧ fresh.Inv ∧ fresh.rxLen = 0 :=
  ⟨inv_silent, by decide, by decide, rfl, inv_fresh, rfl⟩

theorem witness_either_order : (receiving f1 34).Inv ∧ (receiving f1 34).timRun = true ∧
    (receiving f1 34).timCount + 1 = (receiving f1 34).cfg.t35Ticks ∧ 0 < (receiving f1 34).rxLen :=
  ⟨inv_receiving.2.2, rfl, by decide, by decide⟩

theorem witness_pending_in_flight : (holding (sending 2)).Inv ∧
    ∃ t, exec .emit (holding (sending 2)) = .next t ∧ t.txState = .txPending ∧ t.txInflight = true :=
  ⟨inv_holding.2.2, exists_next (by decide +kernel)⟩

theorem witness_host : (127 : Word).toNat < fresh.cfg.capacity .ir ∧ Memory.wf fresh.cfg fresh.store ∧
    (127 : Word).toNat < fresh.cfg.capacity (Item.di true).space ∧ legalConfig fresh.cfgPins = true := by decide +kernel

theorem witness_invariant_step : ({ receiving f1 34 with input := [.tick] } : State).Inv ∧
    ∃ t, step { receiving f1 34 with input := [.tick] } = .next t :=
  ⟨inv_of_checks (by unfold Checks; decide +kernel), _, rfl⟩

/-- For the statements about any instruction that answers: a request, an interrupt event, a foreground event, a host event. -/
theorem witness_next_states : (∃ t, exec (.wrcoil 5 0xFF00) silent = .next t) ∧ (∃ t, exec .tick fresh = .next t) ∧
    (∃ t, exec .emit (holding silent) = .next t) ∧ (∃ t, exec (.hostRead .hr 0) fresh = .next t) ∧
    (∃ t, exec .reset fresh = .next t) := ⟨⟨_, rfl⟩, ⟨_, rfl⟩, ⟨_, rfl⟩, ⟨_, rfl⟩, ⟨fresh, rfl⟩⟩

theorem witness_diagnostic : Event.dispatch ≠ .reset ∧ ∃ t, exec Event.dispatch.instr (pending f1) = .next t ∧ t.dispPhase = .holding :=
  ⟨by decide, exists_next (by decide +kernel)⟩

theorem witness_quiescent : silent.Inv ∧ silent.Quiescent ∧ fresh.Inv ∧ fresh.Quiescent :=
  ⟨inv_silent, ⟨rfl, rfl, rfl, rfl, .inl rfl⟩, inv_fresh, ⟨rfl, rfl, rfl, rfl, .inr ⟨rfl, by simp [fresh, State.afterReset]⟩⟩⟩

end Sys2Proof.Tests
end

/-! PROOFS. The equations of one step (R7, R9, R13, R254), a case each, and the statement assembled from them. -/

namespace Sys2Proof.Machine

theorem step_of_no_event {s : State} (h : s.input = []) : step s = .next s := by
  unfold step
  rw [h]

theorem step_of_event {s : State} {e : Event} {rest : List Event} (h : s.input = e :: rest) :
    step s = takeEvent e rest s := by
  unfold step
  rw [h]

theorem takeEvent_of_admitted {e : Event} {s : State} (h : e.admitted s) (rest : List Event) :
    takeEvent e rest s = exec e.instr { s with input := rest } :=
  if_pos h

theorem takeEvent_of_illegal_config {e : Event} {s : State} (hr : s.hasReset = true) (hc : ¬ legalConfig s.cfg)
    (he : e ≠ .reset) (rest : List Event) : takeEvent e rest s = .refused .illegalConfiguration := by
  have hn : ¬ e.admitted s := not_or.mpr ⟨he, fun h => hc h.2⟩
  calc takeEvent e rest s
      = if s.hasReset then .refused .illegalConfiguration else .fault .eventBeforeReset := if_neg hn
    _ = .refused .illegalConfiguration := if_pos hr

/-- Settles O10: with no event to come by `step`'s first case, else by `takeEvent`'s admitted case or its illegal-configuration case. -/
theorem stepRunsTheNextEvent : Obligations.StepRunsTheNextEvent := by
  unfold Obligations.StepRunsTheNextEvent
  refine fun s => ⟨step_of_no_event, fun e rest hin => ?_⟩
  rw [step_of_event hin]
  constructor
  · intro h
    exact takeEvent_of_admitted h.symm rest
  · intro hr hc he
    exact takeEvent_of_illegal_config hr hc he rest

end Sys2Proof.Machine

/-! PROOFS. Which instructions change the two configurations (R33, R252), from the frame lemma of each, and the reset values of
R22's table. -/

namespace Sys2Proof.Machine

/-- The two configurations of a state: the inputs and the one in force (R33, R252). -/
def State.configs (s : State) : Config × Config := (s.cfgPins, s.cfg)

theorem answer_keeps_configs {fc : Byte} {h : Store × Reply} {s t : State} (ht : answer fc h s = .next t) :
    t.configs = s.configs := by
  rw [answer_frame ht]
  rfl

/-- Each instruction's frame lemma leaves both configurations out of what it changes, RESET's alone excepted. -/
theorem exec_keeps_configs {i : Instr} {s t : State} (hi : i ≠ .reset) (h : exec i s = .next t) :
    t.configs = s.configs := by
  cases i with
  | rdcoil | rddi | rdhr | rdir | wrcoil | wrhr | wrcoils | wrhrs => exact answer_keeps_configs h
  | illfn => exact answer_keeps_configs (h := (s.store, .exception .illegalFunction)) h
  | rxByte => rw [execRxByte_frame h]; rfl
  | txDone => rw [execTxDone_frame h]; rfl
  | tick => rw [execTick_frame h]; rfl
  | dispatch => rw [(execDispatch_changes h).left]; rfl
  | emit => rw [execEmit_frame h]; rfl
  | hostRead => rw [(execHostRead_next h).right]; rfl
  | hostWrite => rw [(execHostWrite_next h).right]; rfl
  | reset => exact absurd rfl hi

/-- RESET samples the inputs and leaves them as they are (R252). -/
theorem exec_reset_configs {s t : State} (h : exec .reset s = .next t) : t.configs = (s.cfgPins, s.cfgPins) := by
  rw [(execReset_next h).right]
  rfl

/-- Settles O49: RESET by its sampling of the inputs, every other instruction by its frame lemma. -/
theorem configurationChangesOnlyAtReset : Obligations.ConfigurationChangesOnlyAtReset := by
  unfold Obligations.ConfigurationChangesOnlyAtReset
  intro i s t h
  by_cases hi : i = .reset
  · subst hi
    obtain ⟨hpins, hcfg⟩ := Prod.mk.inj (exec_reset_configs h)
    exact ⟨hpins, fun hne => absurd rfl hne, fun _ => hcfg⟩
  · obtain ⟨hpins, hcfg⟩ := Prod.mk.inj (exec_keeps_configs hi h)
    exact ⟨hpins, fun _ => hcfg, fun he => absurd he hi⟩

/-- Settles O46: a row of R22's table each, read off the fields of `State.afterReset`. -/
theorem resetStateIsTheTable : Obligations.ResetStateIsTheTable := by
  unfold Obligations.ResetStateIsTheTable
  intro t
  and_intros <;> rfl

end Sys2Proof.Machine

/-! PROOFS. The Register Store (spec/20_memory.md): the exact range check, the host's accesses, the last write read back, the
spaces only the host writes, and the write requests repeated. -/

namespace Sys2Proof.Machine

/-! ### The range check (R55) -/

theorem rangeOk_iff (cap : Nat) (start count : Word) :
    rangeOk cap start count = true ↔ start.toNat + count.toNat ≤ cap :=
  decide_eq_true_iff

/-- Two words add up in 17 bits without a carry out. -/
theorem toNat_add_setWidth_17 (x y : Word) : (x.setWidth 17 + y.setWidth 17).toNat = x.toNat + y.toNat := by
  bv_omega

/-- Settles O29: both sides are the sum of the naturals against the capacity. -/
theorem rangeCheckDoesNotWrap : Obligations.RangeCheckDoesNotWrap := by
  unfold Obligations.RangeCheckDoesNotWrap
  intro cap start count
  constructor
  · rw [rangeOk_iff, toNat_add_setWidth_17]
  · exact rangeOk_iff cap start 1

/-! ### The host's accesses (R52, R53, R69 to R71) -/

/-- Settles O42: inside the space by the meaning's first case; outside it, an answer would contradict the bound. -/
theorem hostReadReturnsTheElement : Obligations.HostReadReturnsTheElement := by
  unfold Obligations.HostReadReturnsTheElement
  intro s sp a
  constructor
  · intro ha
    exact if_pos ha
  · intro ha t ht
    exact absurd (execHostRead_next ht).left (Nat.not_lt.mpr ha)

/-- Settles O44: the three laws of a write to the store. -/
theorem storeReadGivesTheLastWrite : Obligations.StoreReadGivesTheLastWrite := by
  unfold Obligations.StoreReadGivesTheLastWrite
  intro c m a v hm ha
  exact ⟨memoryWf_memWrite hm ha, memRead_memWrite_same hm a v, fun _ _ => memRead_memWrite_other m v⟩

/-- Settles O43: inside the space HOST_WRITE leaves the written store, of which `storeReadGivesTheLastWrite` speaks. -/
theorem hostWriteSetsTheElement : Obligations.HostWriteSetsTheElement := by
  unfold Obligations.HostWriteSetsTheElement
  intro s a v hm ha
  obtain ⟨-, hsame, hother⟩ := storeReadGivesTheLastWrite s.cfg s.store a.toNat v hm ha
  exact ⟨memWrite s.store a.toNat v, if_pos ha, hsame, hother⟩

/-! ### The input spaces (R50, R70) -/

/-- The two spaces no request writes (R50). -/
def inputSpaces (m : Store) : Cells Bool × Cells Word := (m.di, m.ir)

theorem WriteOutcome.keeps_inputSpaces {c : Config} {m : Store} {sp : Space} {h : Store × Reply} (ho : WriteOutcome c m sp h)
    (hdi : sp ≠ .di) (hir : sp ≠ .ir) : inputSpaces h.1 = inputSpaces m :=
  Prod.ext (ho.others.left hdi) (ho.others.right hir)

/-- An answered request changes the input spaces only as its handler does. -/
theorem answer_inputSpaces {fc : Byte} {h : Store × Reply} {s t : State} (ht : answer fc h s = .next t)
    (hh : inputSpaces h.1 = inputSpaces s.store) : inputSpaces t.store = inputSpaces s.store := by
  rw [answer_frame ht]
  exact hh

/-- A read and ILLFN answer with the store they found, a write with one that differs in `COIL` or `HR`, and of the events only
HOST_WRITE and RESET name the input spaces. -/
theorem exec_keeps_inputSpaces {i : Instr} {s t : State} (h : exec i s = .next t) (hw : ∀ a v, i ≠ .hostWrite a v)
    (hr : i ≠ .reset) : inputSpaces t.store = inputSpaces s.store := by
  cases i with
  | rdcoil | rddi | rdhr | rdir => exact answer_inputSpaces h rfl
  | illfn => exact answer_inputSpaces (h := (s.store, .exception .illegalFunction)) h rfl
  | wrcoil a v => exact answer_inputSpaces h ((writeSingleCoil_outcome ..).keeps_inputSpaces nofun nofun)
  | wrhr a v => exact answer_inputSpaces h ((writeSingleRegister_outcome ..).keeps_inputSpaces nofun nofun)
  | wrcoils start qty bc data => exact answer_inputSpaces h ((writeMultipleCoils_outcome ..).keeps_inputSpaces nofun nofun)
  | wrhrs start qty bc data => exact answer_inputSpaces h ((writeMultipleRegisters_outcome ..).keeps_inputSpaces nofun nofun)
  | rxByte => rw [execRxByte_frame h]
  | txDone => rw [execTxDone_frame h]
  | tick => rw [execTick_frame h]
  | dispatch =>
    obtain ⟨-, hdi, hir⟩ := execDispatch_changes h
    exact Prod.ext hdi hir
  | emit => rw [execEmit_frame h]
  | hostRead => rw [(execHostRead_next h).right]; rfl
  | hostWrite a v => exact absurd rfl (hw a v)
  | reset => exact absurd rfl hr

/-- Settles O50: `exec_keeps_inputSpaces`, a space each. -/
theorem inputSpacesChangeOnlyByTheHost : Obligations.InputSpacesChangeOnlyByTheHost := by
  unfold Obligations.InputSpacesChangeOnlyByTheHost
  intro i s t h hw hr
  exact Prod.mk.inj (exec_keeps_inputSpaces h hw hr)

/-! ### Write requests repeated (R62) -/

/-- A handler, run again on the store it left, answers as the first time. -/
def Repeats (c : Config) (f : Store → Store × Reply) : Prop := ∀ m, Memory.wf c m → f (f m).1 = f m

/-- A check that does not read the store comes out the same again (R61). -/
theorem Repeats.check {c : Config} {P : Prop} [Decidable P] {code : ExceptionCode} {f : Store → Store × Reply}
    (hf : ¬ P → Repeats c f) : Repeats c fun m => if P then (m, .exception code) else f m := by
  intro m hm
  by_cases hP : P
  · simp only [if_pos hP]
  · simp only [if_neg hP]
    exact hf hP m hm

/-- A run of writes inside one space, answered with a payload that does not depend on the store. -/
theorem repeats_memWriteRun {c : Config} {sp : Space} {a : Nat} {vs : List Item} (payload : List Byte)
    (hv : ∀ v ∈ vs, v.space = sp) (hc : a + vs.length ≤ c.capacity sp) :
    Repeats c fun m => (memWriteRun m a vs, .success payload) :=
  fun _ hm => Prod.ext (memWriteRun_again hm hv hc) rfl

/-- One write inside its space: the run of length one. -/
theorem repeats_memWrite {c : Config} {a : Nat} {v : Item} (payload : List Byte) (ha : a < c.capacity v.space) :
    Repeats c fun m => (memWrite m a v, .success payload) :=
  repeats_memWriteRun (vs := [v]) payload (by simp) ha

theorem repeats_writeSingleCoil (c : Config) (a v : Word) : Repeats c fun m => writeSingleCoil c m a v :=
  .check fun ha => .check fun _ => repeats_memWrite _ (Nat.lt_of_not_le ha)

theorem repeats_writeSingleRegister (c : Config) (a v : Word) : Repeats c fun m => writeSingleRegister c m a v :=
  .check fun ha => repeats_memWrite _ (Nat.lt_of_not_le ha)

theorem repeats_writeMultipleCoils (c : Config) (start qty : Word) (bc : Byte) (data : List Byte) :
    Repeats c fun m => writeMultipleCoils c m start qty bc data := by
  refine .check fun _ => .check fun _ => .check fun hrange => .check fun _ => .check fun _ => ?_
  refine repeats_memWriteRun (sp := .coil) _ (List.forall_mem_map.mpr fun _ _ => rfl) ?_
  rw [List.length_map, unpackBits_length]
  exact (rangeOk_iff c.nCoils start qty).mp (not_not.mp hrange)

theorem repeats_writeMultipleRegisters (c : Config) (start qty : Word) (bc : Byte) (data : List Byte) :
    Repeats c fun m => writeMultipleRegisters c m start qty bc data := by
  refine .check fun _ => .check fun _ => .check fun hrange => .check fun _ => .check fun _ => ?_
  refine repeats_memWriteRun (sp := .hr) _ (List.forall_mem_map.mpr fun _ _ => rfl) ?_
  rw [List.length_map, dataWords_length]
  exact (rangeOk_iff c.nHr start qty).mp (not_not.mp hrange)

/-- The same frame held again, whatever the phase was set to between, overwrites itself. -/
theorem holdFrame_again (o : List Byte) (s : State) (p : DispPhase) :
    holdFrame o { holdFrame o s with dispPhase := p } = holdFrame o s := by
  simp [holdFrame]

/-- A handler that repeats leaves its own answer when its request is run again in the phase Ready. -/
theorem answer_again (f : Config → Store → Store × Reply) {fc : Byte} {s t : State} (hf : Repeats s.cfg (f s.cfg))
    (hm : Memory.wf s.cfg s.store) (ht : answer fc (f s.cfg s.store) s = .next t) :
    answer fc (f t.cfg t.store) { t with dispPhase := .ready } = .next t := by
  obtain ⟨-, rfl⟩ := answer_next ht
  have hsame : f s.cfg (f s.cfg s.store).1 = f s.cfg s.store := hf s.store hm
  rw [answer_ready _ _ rfl]
  simp only [holdFrame_cfg, holdFrame_store, hsame]
  exact congrArg _ (holdFrame_again _ _ _)

/-- Settles O30: each of the four write handlers repeats, since its checks do not read the store and its writes do not change
what they wrote. -/
theorem repeatedWriteChangesNothing : Obligations.RepeatedWriteChangesNothing := by
  unfold Obligations.RepeatedWriteChangesNothing
  rintro s t i hs h (⟨a, v, rfl | rfl⟩ | ⟨start, qty, bc, data, rfl | rfl⟩)
  · exact answer_again (fun c m => writeSingleCoil c m a v) (repeats_writeSingleCoil s.cfg a v) hs.memory h
  · exact answer_again (fun c m => writeSingleRegister c m a v) (repeats_writeSingleRegister s.cfg a v) hs.memory h
  · exact answer_again (fun c m => writeMultipleCoils c m start qty bc data)
      (repeats_writeMultipleCoils s.cfg start qty bc data) hs.memory h
  · exact answer_again (fun c m => writeMultipleRegisters c m start qty bc data)
      (repeats_writeMultipleRegisters s.cfg start qty bc data) hs.memory h

end Sys2Proof.Machine

/-! PROOFS. The decoder and the encoder against each other (R83 to R88, R93, R94, R98), by the three formats of a request: a pair
of fields, two fields with a byte count and data, and the bare code of ILLFN. -/

namespace Sys2Proof.Machine

/-! ### The formats of a request -/

/-- The codes and requests of formats Q-RANGE and Q-SINGLE (R85, R86, R93). -/
inductive PairFormat : Byte → (Word → Word → Instr) → Prop where
  | rdcoil : PairFormat 0x01 .rdcoil
  | rddi : PairFormat 0x02 .rddi
  | rdhr : PairFormat 0x03 .rdhr
  | rdir : PairFormat 0x04 .rdir
  | wrcoil : PairFormat 0x05 .wrcoil
  | wrhr : PairFormat 0x06 .wrhr

/-- The codes and requests of format Q-MULTI (R87, R93). -/
inductive MultiFormat : Byte → (Word → Word → Byte → List Byte → Instr) → Prop where
  | wrcoils : MultiFormat 0x0F .wrcoils
  | wrhrs : MultiFormat 0x10 .wrhrs

section formats
variable {fc : Byte} {mk : Word → Word → Instr} {mkMulti : Word → Word → Byte → List Byte → Instr}

theorem PairFormat.decode_eq (h : PairFormat fc mk) (d : List Byte) : decode (fc :: d) = decodePair mk fc d := by
  cases h <;> rfl

theorem PairFormat.encode_eq (h : PairFormat fc mk) (a v : Word) : encode (mk a v) = some (encodePair fc a v) := by
  cases h <;> rfl

theorem PairFormat.wellFormed (h : PairFormat fc mk) (a v : Word) : (mk a v).wellFormed = true := by
  cases h <;> rfl

theorem MultiFormat.decode_eq (h : MultiFormat fc mkMulti) (d : List Byte) :
    decode (fc :: d) = decodeMulti mkMulti fc d := by
  cases h <;> rfl

theorem MultiFormat.encode_eq (h : MultiFormat fc mkMulti) (start qty : Word) (bc : Byte) (data : List Byte) :
    encode (mkMulti start qty bc data) = some (encodePair fc start qty ++ bc :: data) := by
  cases h <;> rfl

theorem MultiFormat.wellFormed_iff (h : MultiFormat fc mkMulti) (start qty : Word) (bc : Byte) (data : List Byte) :
    (mkMulti start qty bc data).wellFormed = true ↔ data.length ≤ bc.toNat := by
  cases h <;> exact decide_eq_true_iff

theorem MultiFormat.eq_wrcoils_or_wrhrs (h : MultiFormat fc mkMulti) (start qty : Word) (bc : Byte) (data : List Byte) :
    mkMulti start qty bc data = .wrcoils start qty bc data ∨ mkMulti start qty bc data = .wrhrs start qty bc data := by
  cases h
  · exact .inl rfl
  · exact .inr rfl

end formats

theorem exists_pairFormat {fc : Byte} (h : fc ∈ [0x01#8, 0x02#8, 0x03#8, 0x04#8, 0x05#8, 0x06#8]) :
    ∃ mk, PairFormat fc mk := by
  simp only [List.mem_cons, List.not_mem_nil, or_false] at h
  rcases h with rfl | rfl | rfl | rfl | rfl | rfl
  exacts [⟨_, .rdcoil⟩, ⟨_, .rddi⟩, ⟨_, .rdhr⟩, ⟨_, .rdir⟩, ⟨_, .wrcoil⟩, ⟨_, .wrhr⟩]

theorem exists_multiFormat {fc : Byte} (h : fc ∈ [0x0F#8, 0x10#8]) : ∃ mk, MultiFormat fc mk := by
  simp only [List.mem_cons, List.not_mem_nil, or_false] at h
  rcases h with rfl | rfl
  exacts [⟨_, .wrcoils⟩, ⟨_, .wrhrs⟩]

/-- Every code has one of the three formats (R93, R94). -/
theorem format_cases (fc : Byte) : (∃ mk, PairFormat fc mk) ∨ (∃ mk, MultiFormat fc mk) ∨ fc ∉ knownCodes := by
  by_cases h : fc ∈ [0x01#8, 0x02#8, 0x03#8, 0x04#8, 0x05#8, 0x06#8] ++ [0x0F#8, 0x10#8]
  · rcases List.mem_append.mp h with h | h
    · exact .inl (exists_pairFormat h)
    · exact .inr (.inl (exists_multiFormat h))
  · exact .inr (.inr h)

/-- An instruction with bytes is a request of one of the three formats (R93, R100). -/
theorem encode_cases {i : Instr} {pdu : List Byte} (h : encode i = some pdu) :
    (∃ fc mk a v, PairFormat fc mk ∧ i = mk a v) ∨
    (∃ fc mk start qty bc data, MultiFormat fc mk ∧ i = mk start qty bc data) ∨ ∃ fc, i = .illfn fc := by
  cases i with
  | rdcoil a v => exact .inl ⟨_, _, a, v, .rdcoil, rfl⟩
  | rddi a v => exact .inl ⟨_, _, a, v, .rddi, rfl⟩
  | rdhr a v => exact .inl ⟨_, _, a, v, .rdhr, rfl⟩
  | rdir a v => exact .inl ⟨_, _, a, v, .rdir, rfl⟩
  | wrcoil a v => exact .inl ⟨_, _, a, v, .wrcoil, rfl⟩
  | wrhr a v => exact .inl ⟨_, _, a, v, .wrhr, rfl⟩
  | wrcoils start qty bc data => exact .inr (.inl ⟨_, _, start, qty, bc, data, .wrcoils, rfl⟩)
  | wrhrs start qty bc data => exact .inr (.inl ⟨_, _, start, qty, bc, data, .wrhrs, rfl⟩)
  | illfn fc => exact .inr (.inr ⟨fc, rfl⟩)
  | rxByte | txDone | tick | dispatch | emit | hostRead | hostWrite | reset => nomatch h

/-! ### Decoding each format (R88, R94, R98) -/

theorem decode_of_not_known {fc : Byte} (h : fc ∉ knownCodes) (d : List Byte) : decode (fc :: d) = .request (.illfn fc) := by
  simp only [knownCodes, List.mem_cons, List.not_mem_nil, or_false, not_or] at h
  obtain ⟨h1, h2, h3, h4, h5, h6, h15, h16⟩ := h
  rw [decode, if_neg h1, if_neg h2, if_neg h3, if_neg h4, if_neg h5, if_neg h6, if_neg h15, if_neg h16]

theorem illfn_wellFormed_iff (fc : Byte) : (Instr.illfn fc).wellFormed = true ↔ fc ∉ knownCodes :=
  decide_eq_true_iff

theorem decodePair_fields (mk : Word → Word → Instr) (fc : Byte) (a v : Word) (extra : List Byte) :
    decodePair mk fc (hiByte a :: loByte a :: hiByte v :: loByte v :: extra) = .request (mk a v) := by
  simp only [decodePair, be16_hiByte_loByte]

theorem decodeMulti_fields (mk : Word → Word → Byte → List Byte → Instr) (fc : Byte) (start qty : Word) (bc : Byte)
    (rest : List Byte) :
    decodeMulti mk fc (hiByte start :: loByte start :: hiByte qty :: loByte qty :: bc :: rest) =
      .request (mk start qty bc (rest.take bc.toNat)) := by
  simp only [decodeMulti, be16_hiByte_loByte]

/-- A pair either is short of its four bytes, or consists of two fields and ignored bytes (R88). -/
theorem decodePair_cases (mk : Word → Word → Instr) (fc : Byte) (d : List Byte) :
    (d.length < 4 ∧ decodePair mk fc d = .rejected (.missingFields fc)) ∨
    ∃ a v extra, d = hiByte a :: loByte a :: hiByte v :: loByte v :: extra ∧ decodePair mk fc d = .request (mk a v) := by
  match d with
  | ah :: al :: vh :: vl :: extra =>
    exact .inr ⟨be16 ah al, be16 vh vl, extra, by simp only [hiByte_be16, loByte_be16], rfl⟩
  | [] | [_] | [_, _] | [_, _, _] => exact .inl ⟨by simp, rfl⟩

/-- As `decodePair_cases`, with the byte count and the bytes after it (R88). -/
theorem decodeMulti_cases (mk : Word → Word → Byte → List Byte → Instr) (fc : Byte) (d : List Byte) :
    (d.length < 5 ∧ decodeMulti mk fc d = .rejected (.missingFields fc)) ∨
    ∃ start qty bc rest, d = hiByte start :: loByte start :: hiByte qty :: loByte qty :: bc :: rest ∧
      decodeMulti mk fc d = .request (mk start qty bc (rest.take bc.toNat)) := by
  match d with
  | ah :: al :: vh :: vl :: bc :: rest =>
    exact .inr ⟨be16 ah al, be16 vh vl, bc, rest, by simp only [hiByte_be16, loByte_be16], rfl⟩
  | [] | [_] | [_, _] | [_, _, _] | [_, _, _, _] => exact .inl ⟨by simp, rfl⟩

theorem decodePair_rejected_iff (mk : Word → Word → Instr) (fc : Byte) (d : List Byte) :
    decodePair mk fc d = .rejected (.missingFields fc) ↔ d.length < 4 := by
  rcases decodePair_cases mk fc d with ⟨hd, h⟩ | ⟨a, v, extra, rfl, h⟩
  · exact iff_of_true h hd
  · exact iff_of_false (by rw [h]; nofun) (by simp)

theorem decodeMulti_rejected_iff (mk : Word → Word → Byte → List Byte → Instr) (fc : Byte) (d : List Byte) :
    decodeMulti mk fc d = .rejected (.missingFields fc) ↔ d.length < 5 := by
  rcases decodeMulti_cases mk fc d with ⟨hd, h⟩ | ⟨start, qty, bc, rest, rfl, h⟩
  · exact iff_of_true h hd
  · exact iff_of_false (by rw [h]; nofun) (by simp)

/-! ### Decoding an encoding -/

/-- An encoding, and any bytes after it that its byte count does not claim, decodes to its request. -/
theorem decode_encode_append {i : Instr} {pdu extra : List Byte} (hw : i.wellFormed = true) (he : encode i = some pdu)
    (hx : ∀ start qty bc data, i = .wrcoils start qty bc data ∨ i = .wrhrs start qty bc data →
      (data ++ extra).take bc.toNat = data) : decode (pdu ++ extra) = .request i := by
  rcases encode_cases he with ⟨fc, mk, a, v, hf, rfl⟩ | ⟨fc, mk, start, qty, bc, data, hf, rfl⟩ | ⟨fc, rfl⟩
  · obtain rfl := Option.some.inj ((hf.encode_eq a v).symm.trans he)
    exact (hf.decode_eq _).trans (decodePair_fields mk fc a v extra)
  · obtain rfl := Option.some.inj ((hf.encode_eq start qty bc data).symm.trans he)
    calc decode (encodePair fc start qty ++ bc :: data ++ extra)
        = .request (mk start qty bc ((data ++ extra).take bc.toNat)) :=
          (hf.decode_eq _).trans (decodeMulti_fields mk fc start qty bc (data ++ extra))
      _ = .request (mk start qty bc data) := by rw [hx start qty bc data (hf.eq_wrcoils_or_wrhrs start qty bc data)]
  · obtain rfl := Option.some.inj he
    exact decode_of_not_known ((illfn_wellFormed_iff fc).mp hw) extra

/-- Settles O1: `decode_encode_append` with no bytes after the encoding, the data being at most as many as declared. -/
theorem decodeOfEncodeIsTheRequest : Obligations.DecodeOfEncodeIsTheRequest := by
  unfold Obligations.DecodeOfEncodeIsTheRequest
  intro i pdu hw he
  rw [← List.append_nil pdu]
  refine decode_encode_append hw he fun start qty bc data hi => ?_
  have hlen : data.length ≤ bc.toNat := by
    rcases hi with rfl | rfl
    · exact (MultiFormat.wrcoils.wellFormed_iff start qty bc data).mp hw
    · exact (MultiFormat.wrhrs.wellFormed_iff start qty bc data).mp hw
  rw [List.append_nil]
  exact List.take_of_length_le hlen

/-- Settles O2: `decode_encode_append`, the byte count claiming the data it declares and nothing after it. -/
theorem decodeIgnoresExtraBytes : Obligations.DecodeIgnoresExtraBytes := by
  unfold Obligations.DecodeIgnoresExtraBytes
  intro i pdu extra hw he hbc
  exact decode_encode_append hw he fun start qty bc data hi => List.take_left' (hbc start qty bc data hi)

/-- Settles O3: the codes of each format, and the length its decoding needs. -/
theorem shortRequestsAreRejected : Obligations.ShortRequestsAreRejected := by
  unfold Obligations.ShortRequestsAreRejected
  refine fun fc d => ⟨fun h => ?_, fun h => ?_, fun h => decode_of_not_known h d⟩
  · obtain ⟨mk, hf⟩ := exists_pairFormat h
    rw [hf.decode_eq]
    exact decodePair_rejected_iff mk fc d
  · obtain ⟨mk, hf⟩ := exists_multiFormat h
    rw [hf.decode_eq]
    exact decodeMulti_rejected_iff mk fc d

/-- Settles O4: the decoded fields, encoded again, are the bytes they were read from, whichever format the code has. -/
theorem decodedBytesBeginWithTheEncoding : Obligations.DecodedBytesBeginWithTheEncoding := by
  unfold Obligations.DecodedBytesBeginWithTheEncoding
  intro pdu i h
  cases pdu with
  | nil => nomatch h
  | cons fc d =>
    rcases format_cases fc with ⟨mk, hf⟩ | ⟨mk, hf⟩ | hfc
    · rw [hf.decode_eq] at h
      rcases decodePair_cases mk fc d with ⟨-, hd⟩ | ⟨a, v, extra, rfl, hd⟩
      · nomatch hd.symm.trans h
      · obtain rfl := Decoded.request.inj (hd.symm.trans h)
        exact ⟨hf.wellFormed a v, _, extra, hf.encode_eq a v, rfl⟩
    · rw [hf.decode_eq] at h
      rcases decodeMulti_cases mk fc d with ⟨-, hd⟩ | ⟨start, qty, bc, rest, rfl, hd⟩
      · nomatch hd.symm.trans h
      · obtain rfl := Decoded.request.inj (hd.symm.trans h)
        refine ⟨(hf.wellFormed_iff ..).mpr (List.length_take_le ..), _, rest.drop bc.toNat, hf.encode_eq .., ?_⟩
        simp [encodePair, List.take_append_drop]
    · rw [decode_of_not_known hfc] at h
      obtain rfl := Decoded.request.inj h
      exact ⟨(illfn_wellFormed_iff fc).mpr hfc, [fc], d, rfl, rfl⟩

end Sys2Proof.Machine

/-! PROOFS. Which events have a step (R100, R223), how the others stop, and the step that runs a placed table word. -/

namespace Sys2Proof.Machine

/-! ### Enabled and disabled events (R9, R70, R71, R100) -/

theorem execTxDone_of_idle {s : State} (h : s.txInflight = false) : execTxDone s = .fault .txDoneNothingInFlight :=
  if_neg (ne_true_of_eq_false h)

theorem execDispatch_of_holding {s : State} (h : s.dispPhase = .holding) :
    execDispatch s = .fault .dispatchWhileHolding :=
  if_neg (by simp [h])

theorem execEmit_of_ready {s : State} (h : s.dispPhase = .ready) : execEmit s = .fault .emitWhileReady :=
  if_neg (by simp [h])

/-- TX_DONE answers only with a byte in flight (R149). -/
theorem execTxDone_inflight {s t : State} (h : execTxDone s = .next t) : s.txInflight = true := by
  by_contra hs
  nomatch (execTxDone_of_idle (eq_false_of_ne_true hs)).symm.trans h

/-- EMIT answers only while a response is held (R181). -/
theorem execEmit_holding {s t : State} (h : execEmit s = .next t) : s.dispPhase = .holding := by
  cases hs : s.dispPhase with
  | ready => nomatch (execEmit_of_ready hs).symm.trans h
  | holding => rfl

/-- DISPATCH completes in the phase Ready, whatever the mailbox holds (R171, R178). -/
theorem execDispatch_completes {s : State} (hs : s.dispPhase = .ready) : ∃ t, exec .dispatch s = .next t := by
  by_cases hn : s.mbLen = 0
  · exact ⟨s, (if_pos hs).trans (if_pos hn)⟩
  · rw [execDispatch_frame hs hn]
    exact validate_completes s.mailbox hs

/-- Settles O13: RX_BYTE and TICK always answer; any other event that answers meets its condition, by the inversion of its
meaning, and under the condition its meaning takes the case that answers. -/
theorem eventsStepExactlyWhenEnabled : Obligations.EventsStepExactlyWhenEnabled := by
  unfold Obligations.EventsStepExactlyWhenEnabled
  intro e s
  cases e with
  | rxByte | tick => exact iff_of_true ⟨_, rfl⟩ trivial
  | txDone => exact ⟨fun ⟨_, ht⟩ => execTxDone_inflight ht, fun h => ⟨_, if_pos h⟩⟩
  | dispatch => exact ⟨fun ⟨_, ht⟩ => (execDispatch_next ht).left, execDispatch_completes⟩
  | emit => exact ⟨fun ⟨_, ht⟩ => execEmit_holding ht, fun h => ⟨_, if_pos h⟩⟩
  | hostRead => exact ⟨fun ⟨_, ht⟩ => (execHostRead_next ht).left, fun h => ⟨_, if_pos h⟩⟩
  | hostWrite => exact ⟨fun ⟨_, ht⟩ => (execHostWrite_next ht).left, fun h => ⟨_, if_pos h⟩⟩
  | reset => exact ⟨fun ⟨_, ht⟩ => (execReset_next ht).left, fun h => ⟨_, if_pos h⟩⟩

/-- Settles O14: the case of each event's meaning that is taken when its guard fails. -/
theorem disabledEventsStopByName : Obligations.DisabledEventsStopByName := by
  unfold Obligations.DisabledEventsStopByName
  intro s
  and_intros
  · exact execTxDone_of_idle
  · exact execDispatch_of_holding
  · exact execEmit_of_ready
  · exact fun sp a h => if_neg (Nat.not_lt.mpr h)
  · exact fun a v h => if_neg (Nat.not_lt.mpr h)
  · exact fun h => if_neg h

/-! ### A table word run by the next step (logs 9 and 10) -/

theorem framePdu_requestFrame (addr : Byte) (pdu : List Byte) : framePdu (requestFrame addr pdu) = pdu := by
  simp [framePdu, requestFrame, withCrc]

theorem decodeTableWord_eq_some {nbits w : Nat} {i : Instr} (h : decodeTableWord nbits w = some i) :
    decode (tablePdu nbits w) = .request i := by
  unfold decodeTableWord at h
  split at h
  · obtain rfl := Option.some.inj h
    assumption
  · nomatch h

/-- A request placed in the mailbox is the event DISPATCH, run on the state `withRequest` built. -/
theorem step_withRequest {s : State} (hc : legalConfig s.cfg) (f : List Byte) :
    step (s.withRequest f) = exec .dispatch { s.withRequest f with input := s.input } :=
  (step_of_event rfl).trans (takeEvent_of_admitted (s := s.withRequest f) (.inr ⟨rfl, hc⟩) s.input)

/-- A request frame of this station in the mailbox is run as the request its PDU decodes to (R171 to R177). -/
theorem execDispatch_requestFrame {s : State} {pdu : List Byte} {i : Instr} (hr : s.dispPhase = .ready)
    (hm : s.mailbox = requestFrame s.cfg.localAddr pdu) (hn : s.mbLen ≠ 0) (hd : decode pdu = .request i) :
    exec .dispatch s = exec i { s with mbLen := 0, outputs := s.outputs ++ diagOutputs s s.mailbox } := by
  have hlen : 4 ≤ s.mailbox.length := by
    cases pdu with
    | nil => nomatch hd
    | cons fc d => simp [hm, requestFrame, withCrc]
  rw [execDispatch_frame hr hn]
  refine validate_request hlen ?_ ?_ ?_
  · simp [hm, requestFrame, withCrc]
  · rw [hm]
    exact crcPasses_withCrc _
  · rw [hm, framePdu_requestFrame]
    exact hd

/-- Settles O12: the step is the DISPATCH placed with the word, which finds the word's frame in the mailbox. -/
theorem stepRunsThePlacedTableWord : Obligations.StepRunsThePlacedTableWord := by
  unfold Obligations.StepRunsThePlacedTableWord
  intro s nbits w i hc hi
  calc step (s.withFetchWord nbits w)
      = exec .dispatch { s.withFetchWord nbits w with input := s.input } := step_withRequest hc _
    _ = _ := execDispatch_requestFrame (pdu := tablePdu nbits w) rfl (overlay_take _ _) ?_ (decodeTableWord_eq_some hi)
  exact Nat.succ_ne_zero _

end Sys2Proof.Machine

/-! PROOFS. Silence and reception (R123 to R128, R141 to R144): what ticks and the bytes of a frame leave, and the frame published
by the silence after it. -/

namespace Sys2Proof.Machine

/-! ### Silence of a running timer (R123 to R125) -/

/-- What `k` ticks that do not reach T35_TICKS leave: the count, and the mid-timeout if they reach T15_TICKS. -/
def afterTicks (k : Nat) (s : State) : State :=
  { s with
    timCount := s.timCount + k
    midFired := s.midFired || decide (s.timCount < s.cfg.t15Ticks ∧ s.cfg.t15Ticks ≤ s.timCount + k) }

/-- Ticks that do not cross T15_TICKS only count. -/
theorem afterTicks_of_not_crossing {k : Nat} {s : State}
    (h : ¬ (s.timCount < s.cfg.t15Ticks ∧ s.cfg.t15Ticks ≤ s.timCount + k)) :
    afterTicks k s = { s with timCount := s.timCount + k } := by
  simp only [afterTicks, h, decide_false, Bool.or_false]

theorem afterTicks_zero (s : State) : afterTicks 0 s = s :=
  afterTicks_of_not_crossing (by omega)

/-- One tick more: the mid-timeout fires in it exactly if it is the tick that reaches T15_TICKS (R124). -/
theorem afterTicks_succ (k : Nat) (s : State) : afterTicks (k + 1) s = midTimeout (countTick (afterTicks k s)) := by
  by_cases hfires : s.timCount + k + 1 = s.cfg.t15Ticks
  · have hcross : s.timCount < s.cfg.t15Ticks ∧ s.cfg.t15Ticks ≤ s.timCount + (k + 1) := by omega
    refine Eq.trans ?_ (if_pos hfires).symm
    simp only [afterTicks, hcross, and_self, decide_true, Bool.or_true]
    rfl
  · have hcross : (s.timCount < s.cfg.t15Ticks ∧ s.cfg.t15Ticks ≤ s.timCount + (k + 1)) ↔
        (s.timCount < s.cfg.t15Ticks ∧ s.cfg.t15Ticks ≤ s.timCount + k) := by omega
    refine Eq.trans ?_ (if_neg hfires).symm
    simp only [afterTicks, hcross]
    rfl

theorem play_singleton (e : Event) (s : State) : play [e] s = exec e.instr s := by
  simp only [play]
  cases exec e.instr s <;> rfl

theorem play_silence {s : State} (hr : s.timRun = true) {k : Nat} (hk : s.timCount + k < s.cfg.t35Ticks) :
    play (silence k) s = .next (afterTicks k s) := by
  induction k with
  | zero => rw [afterTicks_zero]; rfl
  | succ k ih =>
    rw [silence_succ, play_append_next (ih (by omega)), play_singleton, afterTicks_succ]
    exact execTick_below hr (Nat.ne_of_lt hk)

/-- The silence that reaches T35_TICKS ends with the end-timeout (R125, R129). -/
theorem play_silence_end {s : State} (hr : s.timRun = true) {k : Nat} (hk : s.timCount + (k + 1) = s.cfg.t35Ticks)
    (hlt : s.cfg.t15Ticks < s.cfg.t35Ticks) :
    play (silence (k + 1)) s = .next (txEndTimeoutGate (endOfFrame (fireEnd (countTick (afterTicks k s))))) := by
  rw [silence_succ, play_append_next (play_silence hr (by omega)), play_singleton]
  exact execTick_end hr hk hlt

/-! ### Reception (R141, R142) -/

/-- The state without the elements RX_BYTE and a running timer write: what reception leaves alone (R233). -/
def State.withoutReception (s : State) : State :=
  { s with timCount := 0, timRun := true, midFired := false, endFired := false, faState := .idle, rxBuf := [], rxLen := 0 }

theorem execRxByte_withoutReception {b : Byte} {s t : State} (h : execRxByte b s = .next t) :
    t.withoutReception = s.withoutReception := by
  rw [execRxByte_frame h]
  rfl

theorem discardStale_rxLen_le (s : State) : (discardStale s).rxLen ≤ s.rxLen := by
  unfold discardStale
  split
  · exact Nat.zero_le _
  · exact Nat.le_refl _

/-- What the next byte finds accumulated: nothing once the mid-timeout has fired (R141). -/
def State.foundByNextByte (s : State) : List Byte := if s.midFired then [] else s.received

theorem discardStale_received_eq_found (s : State) : (discardStale s).received = s.foundByNextByte :=
  discardStale_received s

/-- The frame `p` has been received so far, and its first RX_CAP bytes are what the next byte finds (R141, R142). -/
structure State.Gathered (s : State) (p : List Byte) : Prop where
  room : s.rxBuf.length = s.cfg.rxCap
  fits : s.rxLen ≤ s.cfg.rxCap
  bytes : s.foundByNextByte = p.take s.cfg.rxCap

/-- With nothing fresh accumulated, the next byte begins a frame. -/
theorem gathered_nil {s : State} (hs : s.Inv) (h : s.midFired = true ∨ s.rxLen = 0) : s.Gathered [] where
  room := hs.rxBufLength
  fits := hs.rxFits
  bytes := by
    rw [List.take_nil]
    rcases h with h | h <;> simp [State.foundByNextByte, State.received, h]

theorem State.Gathered.received {s : State} {p : List Byte} (h : s.Gathered p) (hm : s.midFired = false) :
    s.received = p.take s.cfg.rxCap := by
  rw [← h.bytes, State.foundByNextByte, hm]
  rfl

theorem State.Gathered.rxLen {s : State} {p : List Byte} (h : s.Gathered p) (hm : s.midFired = false) :
    s.rxLen = min p.length s.cfg.rxCap := by
  have hlen := congrArg List.length (h.received hm)
  have hfits := h.fits
  have hroom := h.room
  simp only [State.received, List.length_take] at hlen
  omega

theorem State.Gathered.afterTicks {s : State} {p : List Byte} (h : s.Gathered p) {k : Nat}
    (hk : s.timCount + k < s.cfg.t15Ticks) : (afterTicks k s).Gathered p := by
  rw [afterTicks_of_not_crossing (by omega)]
  exact ⟨h.room, h.fits, h.bytes⟩

/-- What a byte leaves of state `s`: the timer restarted, a frame with the byte at its end, and the rest as it was (R141). -/
structure State.JustReceived (s : State) (p : List Byte) (t : State) : Prop where
  gathered : t.Gathered p
  running : t.timRun = true
  restarted : t.timCount = 0
  fresh : t.midFired = false
  rest : t.withoutReception = s.withoutReception

theorem State.JustReceived.cfg {s t : State} {p : List Byte} (h : s.JustReceived p t) : t.cfg = s.cfg :=
  (congrArg State.cfg h.rest :)

/-- RX_BYTE puts its byte at the end of the gathered frame, or drops it if the accumulator is full (R141, R142). -/
theorem execRxByte_justReceived {s : State} {p : List Byte} (h : s.Gathered p) (b : Byte) :
    ∃ t, execRxByte b s = .next t ∧ s.JustReceived (p ++ [b]) t := by
  have hroom : (restartTimer (discardStale s)).rxBuf.length = (restartTimer (discardStale s)).cfg.rxCap := by
    simpa using h.room
  have hfits : (restartTimer (discardStale s)).rxLen ≤ (restartTimer (discardStale s)).cfg.rxCap := by
    simpa using (discardStale_rxLen_le s).trans h.fits
  have hbytes : (accumulate b (restartTimer (discardStale s))).received = (p ++ [b]).take s.cfg.rxCap := by
    calc (accumulate b (restartTimer (discardStale s))).received
        = ((discardStale s).received ++ [b]).take (discardStale s).cfg.rxCap := accumulate_received b hroom hfits
      _ = (p.take s.cfg.rxCap ++ [b]).take s.cfg.rxCap := by rw [discardStale_received_eq_found, h.bytes, discardStale_cfg]
      _ = (p ++ [b]).take s.cfg.rxCap := take_take_append ..
  refine ⟨_, rfl, ⟨?_, ?_, ?_⟩, by simp, by simp, by simp, execRxByte_withoutReception rfl⟩
  · simpa [accumulate_rxBuf_length] using h.room
  · simp [accumulate_rxLen b hfits]
  · simpa [State.foundByNextByte, State.received] using hbytes

/-- The bytes of a frame with short gaps between them are gathered behind what was gathered before (R128, R141). -/
theorem play_rxFrame {g : Nat} {f p : List Byte} {s : State} (hf : f ≠ []) (hg : g < s.cfg.t15Ticks)
    (hlt : s.cfg.t15Ticks < s.cfg.t35Ticks) (hs : s.Gathered p) :
    ∃ t, play (rxFrame g f) s = .next t ∧ s.JustReceived (p ++ f) t := by
  induction f generalizing s p with
  | nil => exact absurd rfl hf
  | cons b f ih =>
    obtain ⟨t, ht, hr⟩ := execRxByte_justReceived hs b
    cases f with
    | nil => exact ⟨t, (play_singleton _ s).trans ht, hr⟩
    | cons b' f =>
      have hcfg := hr.cfg
      have hgap : t.timCount + g < t.cfg.t15Ticks := by rw [hr.restarted, hcfg]; omega
      obtain ⟨u, hu, hru⟩ := ih (s := afterTicks g t) (p := p ++ [b]) nofun (hcfg ▸ hg) (hcfg ▸ hlt)
        (hr.gathered.afterTicks hgap)
      refine ⟨u, ?_, ?_⟩
      · calc play (rxFrame g (b :: b' :: f)) s
            = play (silence g ++ rxFrame g (b' :: f)) t := play_append_next (xs := [.rxByte b]) ((play_singleton _ s).trans ht)
          _ = play (rxFrame g (b' :: f)) (afterTicks g t) :=
              play_append_next (play_silence hr.running (by rw [hcfg] at hgap ⊢; omega))
          _ = .next u := hu
      · rw [List.append_cons]
        exact { hru with rest := hru.rest.trans hr.rest }

/-! ### The frame published (R143) -/

/-- The end-timeout puts what is accumulated into the mailbox (R143, R144). -/
theorem endTimeout_mailbox {s : State} (hfits : s.rxLen ≤ s.rxBuf.length) (h0 : s.rxLen ≠ 0) :
    (txEndTimeoutGate (endOfFrame (fireEnd s))).mailbox = s.received := by
  calc (txEndTimeoutGate (endOfFrame (fireEnd s))).mailbox
      = (endOfFrame (fireEnd s)).mailbox := by simp [State.mailbox]
    _ = if s.rxLen = 0 then s.mailbox else s.received := endOfFrame_mailbox hfits
    _ = s.received := if_neg h0

theorem endTimeout_mbLen {s : State} (h0 : s.rxLen ≠ 0) :
    (txEndTimeoutGate (endOfFrame (fireEnd s))).mbLen = s.rxLen := by
  simp [endOfFrame_eq, h0]

/-- The end-timeout leaves the store and the dispatcher's output (R233). -/
theorem endTimeout_foreground (s : State) :
    (txEndTimeoutGate (endOfFrame (fireEnd s))).store = s.store ∧
    (txEndTimeoutGate (endOfFrame (fireEnd s))).dispPhase = s.dispPhase ∧
    (txEndTimeoutGate (endOfFrame (fireEnd s))).heldFrame = s.heldFrame := by
  simp [State.heldFrame]

/-- Settles O38: the bytes are gathered into the accumulator, the silence ends with the end-timeout, and that publishes them. -/
theorem framesAreDelimitedBySilence : Obligations.FramesAreDelimitedBySilence := by
  unfold Obligations.FramesAreDelimitedBySilence
  intro s f g hs hf hg hfresh
  obtain ⟨-, -, hlt, hcap, -⟩ := (legalConfig_iff s.cfg).mp hs.legal
  obtain ⟨t, ht, hr⟩ := play_rxFrame hf hg hlt (gathered_nil hs hfresh)
  have hcfg := hr.cfg
  have hheld : t.received = f.take s.cfg.rxCap := hcfg ▸ hr.gathered.received hr.fresh
  have hlen : t.rxLen = min f.length s.cfg.rxCap := hcfg ▸ hr.gathered.rxLen hr.fresh
  have h0 : t.rxLen ≠ 0 := by
    have := List.length_pos_iff.mpr hf
    omega
  have hfits : t.rxLen ≤ t.rxBuf.length := hr.gathered.room ▸ hr.gathered.fits
  obtain ⟨k, hk⟩ := Nat.exists_eq_add_one_of_ne_zero (Nat.ne_zero_of_lt hlt)
  have hend := play_silence_end (s := t) (k := k) hr.running (by rw [hr.restarted, hcfg]; omega) (hcfg ▸ hlt)
  obtain ⟨hstore, hphase, hout⟩ := endTimeout_foreground (countTick (afterTicks k t))
  refine ⟨_, (play_append_next ht).trans (hk ▸ hend), ?_, ?_, by simp, by simp, by simp, ?_, ?_, ?_⟩
  · exact (endTimeout_mailbox (s := countTick (afterTicks k t)) hfits h0).trans hheld
  · exact (endTimeout_mbLen (s := countTick (afterTicks k t)) h0).trans hlen
  · exact hstore.trans (congrArg State.store hr.rest :)
  · exact hphase.trans (congrArg State.dispPhase hr.rest :)
  · exact hout.trans (congrArg State.heldFrame hr.rest :)

end Sys2Proof.Machine

/-! PROOFS. The CRC engine (R110 to R115): the loop and its table form, the check of the last two bytes, and the appended CRC. -/

namespace Sys2Proof.Machine

/-! ### The loop and its table form (R110, R111) -/

/-- The model's inner loop is R110's inner step iterated. -/
theorem crcShifts_eq_iterate (k : Nat) (c : Word) : crcShifts k c = crcShift^[k] c := by
  induction k generalizing c with
  | zero => rfl
  | succ k ih => rw [crcShifts, ih, Function.iterate_succ_apply]

theorem crcTable_length : crcTable.length = 256 := by decide +kernel

/-- The two folds agree because their bodies agree on every byte. -/
theorem crc16Table_eq_crc16 (f : List Byte) : crc16Table f = crc16 f :=
  congrArg (fun body => f.foldl body 0xFFFF) (funext₂ crcTableByte_eq)

/-- Settles O6: the fold takes the last byte through `crcByte`, whose inner loop is the iterated step. -/
theorem crcIsTheBitwiseLoop : Obligations.CrcIsTheBitwiseLoop := by
  unfold Obligations.CrcIsTheBitwiseLoop
  refine ⟨crc16_nil, fun f b => ?_⟩
  calc crc16 (f ++ [b])
      = crcShifts 8 (crc16 f ^^^ b.setWidth 16) := crc16_append_byte f b
    _ = crcShift^[8] (crc16 f ^^^ b.setWidth 16) := crcShifts_eq_iterate 8 _

/-- Settles O7: an entry is the inner loop of its index, and so a byte through the table is a byte through the loop. -/
theorem crcTableFormIsTheBitwiseForm : Obligations.CrcTableFormIsTheBitwiseForm := by
  unfold Obligations.CrcTableFormIsTheBitwiseForm
  refine ⟨crcTable_length, fun x => ?_, crc16Table_eq_crc16⟩
  calc crcTable.getD x.toNat 0
      = crcShifts 8 (x.setWidth 16) := crcTable_entry x
    _ = crcShift^[8] (x.setWidth 16) := crcShifts_eq_iterate 8 _

/-! ### The check and the appended CRC (R113 to R115) -/

/-- The check of a frame written as its bytes and two more. -/
theorem crcPasses_append_iff (f : List Byte) (lo hi : Byte) :
    crcPasses (f ++ [lo, hi]) = true ↔ lo = loByte (crc16 f) ∧ hi = hiByte (crc16 f) := by
  have hlast : f.length + 2 - 1 = f.length + 1 := by omega
  simp [crcPasses_iff, hlast]

/-- Settles O8: the check reads the two bytes after `f` against the two halves of its CRC. -/
theorem crcCheckIsLowByteFirst : Obligations.CrcCheckIsLowByteFirst := by
  unfold Obligations.CrcCheckIsLowByteFirst
  exact fun f lo hi _ => crcPasses_append_iff f lo hi

/-- Settles O9: `sealed` appends the CRC as the block does, and the low byte then the high byte bring the CRC to 0. -/
theorem appendedCrcPasses : Obligations.AppendedCrcPasses := by
  unfold Obligations.AppendedCrcPasses
  intro o
  rw [← withCrc_eq_sealed]
  exact ⟨crcPasses_withCrc o, crc16_withCrc o⟩

end Sys2Proof.Machine

/-! PROOFS. The silence timer (spec/41_silence_timer.md): the complete TICK step (R129), what `k` ticks leave after a restart, the
partial frame lost in a gap between the two timeouts, and the default thresholds (R121). -/

namespace Sys2Proof.Machine

/-! ### One tick (R129) -/

/-- One tick of a running timer below T35_TICKS, its mid-timeout with it (R123, R124). -/
theorem midTimeout_countTick_eq (s : State) : midTimeout (countTick s) = { s with
    timCount := s.timCount + 1
    midFired := s.midFired || decide (s.timCount + 1 = s.cfg.t15Ticks) } := by
  by_cases hfires : s.timCount + 1 = s.cfg.t15Ticks
  · rw [decide_eq_true hfires, Bool.or_true]
    exact if_pos hfires
  · rw [decide_eq_false hfires, Bool.or_false]
    exact if_neg hfires

/-- The deferred transmit, all of it (R148, R150). -/
theorem txEndTimeoutGate_eq (s : State) : txEndTimeoutGate s =
    if s.txState = .txPending ∧ s.txInflight = false then
      { s with txState := .txActive, txCur := 0, txInflight := true, outputs := s.outputs ++ [.txOut (s.txBuf.getD 0 0)] }
    else s := by
  simp only [txEndTimeoutGate, txArm, Bool.not_eq_true]

/-- The mailbox's buffer after a publication: the accumulated bytes in front, and the capacity kept (R28, R143). -/
theorem overlay_received {s : State} (hs : s.Inv) :
    (overlay s.received s.mbBuf).take s.rxLen = s.received ∧ (overlay s.received s.mbBuf).length = s.cfg.rxCap := by
  have hlen : s.received.length = s.rxLen := by
    simp [State.received, hs.rxBufLength, hs.rxFits]
  refine ⟨?_, ?_⟩
  · rw [← hlen]
    exact overlay_take s.received s.mbBuf
  · rw [overlay_length (by rw [hlen, hs.mbBufLength]; exact hs.rxFits), hs.mbBufLength]

/-- Settles O33: a halted tick, a tick that only counts, and the tick that reaches T35_TICKS, with the frame boundary and the
deferred transmit written out. -/
theorem tickCountsAndFires : Obligations.TickCountsAndFires := by
  unfold Obligations.TickCountsAndFires
  intro s hs
  obtain ⟨-, -, hlt, -⟩ := (legalConfig_iff s.cfg).mp hs.legal
  refine ⟨fun hr => execTick_halted hr, fun hr hc => ?_, fun hr hc => ?_⟩
  · exact (execTick_below hr (Nat.ne_of_lt hc)).trans (congrArg _ (midTimeout_countTick_eq s))
  · refine ⟨if s.rxLen = 0 then s.mbBuf else overlay s.received s.mbBuf,
      if s.rxLen = 0 then s.mbLen else s.rxLen, ?_, ?_, ?_⟩
    · calc exec .tick s
          = .next (txEndTimeoutGate (endOfFrame (fireEnd (countTick s)))) := execTick_end hr hc hlt
        _ = _ := by rw [txEndTimeoutGate_eq, endOfFrame_eq, ← hc]; rfl
    · intro h
      obtain ⟨hbytes, hlen⟩ := overlay_received hs
      rw [if_neg (Nat.ne_of_gt h), if_neg (Nat.ne_of_gt h)]
      exact ⟨rfl, hbytes, hlen⟩
    · intro h
      rw [if_pos h, if_pos h]
      exact ⟨rfl, rfl⟩

/-! ### Ticks after a restart (R123 to R126, R143) -/

theorem silence_add (k j : Nat) : silence (k + j) = silence k ++ silence j := List.replicate_add k j _

/-- A halted timer stays as it is however long the silence (R126). -/
theorem play_silence_halted {s : State} (h : s.timRun = false) (k : Nat) : play (silence k) s = .next s := by
  induction k with
  | zero => rfl
  | succ k ih =>
    rw [silence_succ, play_append_next ih, play_singleton]
    exact execTick_halted h

/-- Ticks past T35_TICKS add nothing to what the end-timeout left (R125, R126). -/
theorem play_silence_past_end {s : State} (hr : s.timRun = true) {k : Nat} (hk : s.timCount + (k + 1) = s.cfg.t35Ticks)
    (hlt : s.cfg.t15Ticks < s.cfg.t35Ticks) (j : Nat) :
    play (silence (k + 1 + j)) s = .next (txEndTimeoutGate (endOfFrame (fireEnd (countTick (afterTicks k s))))) := by
  rw [silence_add, play_append_next (play_silence_end hr hk hlt)]
  exact play_silence_halted (by simp) j

/-- From a restart on, the mid latch tells whether T15_TICKS has been reached (R124). -/
theorem afterTicks_midFired_iff {s : State} (hs : s.Inv) (h0 : s.timCount = 0) (k : Nat) :
    (afterTicks k s).midFired = true ↔ s.cfg.t15Ticks ≤ k := by
  obtain ⟨-, hpos, -⟩ := (legalConfig_iff s.cfg).mp hs.legal
  have hmid := hs.midIffCount
  simp only [afterTicks, Bool.or_eq_true, decide_eq_true_eq, hmid]
  omega

@[simp] theorem txEndTimeoutGate_mailbox (s : State) : (txEndTimeoutGate s).mailbox = s.mailbox := by
  simp [State.mailbox]

/-- Settles O36: below T35_TICKS the ticks only count; the tick that reaches it is the end-timeout, and the ticks after that find
the timer halted. -/
theorem silenceRunsTheLatches : Obligations.SilenceRunsTheLatches := by
  unfold Obligations.SilenceRunsTheLatches
  intro s k hs hr h0
  obtain ⟨-, hpos, hlt, -⟩ := (legalConfig_iff s.cfg).mp hs.legal
  rcases Nat.lt_or_ge k s.cfg.t35Ticks with hk | hk
  · have hend : s.endFired ≠ true := fun h => by
      have := hs.endIffCount.mp h
      omega
    refine ⟨afterTicks k s, play_silence hr (by omega), ?_, afterTicks_midFired_iff hs h0 k, ?_, ?_,
      fun _ => rfl, fun h => ?_⟩
    · simp only [afterTicks]
      omega
    · exact iff_of_false hend (Nat.not_le.mpr hk)
    · exact iff_of_true hr hk
    · omega
  · obtain ⟨n, hn⟩ := Nat.exists_eq_add_one_of_ne_zero (Nat.ne_zero_of_lt hlt)
    obtain ⟨j, rfl⟩ := Nat.exists_eq_add_of_le hk
    have hplay := play_silence_past_end hr (k := n) (by omega) hlt j
    have hmid : (afterTicks n s).midFired = true := (afterTicks_midFired_iff hs h0 n).mpr (by omega)
    refine ⟨_, hn ▸ hplay, ?_, ?_, ?_, ?_, ?_, fun _ => ⟨?_, ?_⟩⟩
    · have hcount : min (s.cfg.t35Ticks + j) s.cfg.t35Ticks = s.timCount + n + 1 := by omega
      rw [hcount]
      simp [afterTicks]
    · exact iff_of_true (by simpa using hmid) (by omega)
    · exact iff_of_true (by simp) hk
    · exact iff_of_false (by simp) (by omega)
    · omega
    · simp
    · rw [txEndTimeoutGate_mailbox]
      exact endOfFrame_mailbox (s := fireEnd (countTick (afterTicks n s))) (hs.rxBufLength ▸ hs.rxFits)

/-- Settles O37: the gap leaves the mid latch set, so the next byte finds nothing gathered and begins a frame. -/
theorem gapDiscardsThePartialFrame : Obligations.GapDiscardsThePartialFrame := by
  unfold Obligations.GapDiscardsThePartialFrame
  intro s k b hs hr h0 h15 h35
  obtain ⟨-, -, -, hcap, -⟩ := (legalConfig_iff s.cfg).mp hs.legal
  have hmid : (afterTicks k s).midFired = true := (afterTicks_midFired_iff hs h0 k).mpr h15
  have hnone : (afterTicks k s).Gathered [] := ⟨hs.rxBufLength, hs.rxFits, by simp [State.foundByNextByte, hmid]⟩
  obtain ⟨t, ht, hb⟩ := execRxByte_justReceived hnone b
  have hcfg : t.cfg = s.cfg := hb.cfg
  refine ⟨t, ?_, ?_, (congrArg State.mailbox hb.rest :)⟩
  · rw [play_append_next (play_silence hr (by omega)), play_singleton]
    exact ht
  · rw [hb.gathered.received hb.fresh, hcfg]
    exact List.take_of_length_le (show 1 ≤ s.cfg.rxCap by omega)

/-! ### The default thresholds (R9, R121) -/

theorem defaultT15_le_iff (k n : Nat) : defaultT15 k ≤ n ↔ 3 * k ≤ 2 * n := by
  unfold defaultT15
  omega

theorem defaultT35_le_iff (k n : Nat) : defaultT35 k ≤ n ↔ 7 * k ≤ 2 * n := by
  unfold defaultT35
  omega

/-- A character time gives R9's thresholds their order. -/
theorem defaultThresholds_ordered {k : Nat} (hk : 1 ≤ k) : 1 ≤ defaultT15 k ∧ defaultT15 k < defaultT35 k := by
  unfold defaultT15 defaultT35
  omega

/-- Settles O55: the ranges of a legal configuration, the rounding of the two thresholds, and R9's defaults range by range. -/
theorem defaultThresholdsAreRoundedUp : Obligations.DefaultThresholdsAreRoundedUp := by
  unfold Obligations.DefaultThresholdsAreRoundedUp
  refine ⟨fun c hc => ?_, ?_⟩
  · obtain ⟨-, hpos, hlt, -⟩ := (legalConfig_iff c).mp hc
    exact ⟨hpos, hlt⟩
  · rintro a k m d c rfl
    refine ⟨fun n => (defaultT15_le_iff k n).symm, fun n => (defaultT35_le_iff k n).symm, fun hk hm => ?_⟩
    obtain ⟨hpos, hlt⟩ := defaultThresholds_ordered hk
    refine (legalConfig_iff _).mpr ⟨hk, hpos, hlt, ?_, ?_, ?_, ?_, ?_, ?_, hm⟩ <;> simp [Config.ofDefaults]

end Sys2Proof.Machine

/-! PROOFS. The invariants of every reachable state (R154, R22): the state after RESET meets them, each operation and each event keeps
them, and so does every step. With them the complete steps of RX_BYTE and TX_DONE (R141, R149), the response clocked out byte by byte
(R151), and the one way to a pending frame with a byte in flight (R154 item 7). -/

namespace Sys2Proof.Machine

/-! ### RX_BYTE and TX_DONE, all of each (R141, R142, R149) -/

/-- What the next byte finds is itself a frame gathered so far. -/
theorem gathered_found {s : State} (hs : s.Inv) : s.Gathered s.foundByNextByte where
  room := hs.rxBufLength
  fits := hs.rxFits
  bytes := by
    refine (List.take_of_length_le ?_).symm
    unfold State.foundByNextByte
    split
    · exact Nat.zero_le _
    · exact (List.length_take_le _ _).trans hs.rxFits

/-- Settles O32: the byte is received behind what it finds gathered, and the frame lemma of RX_BYTE leaves the rest. -/
theorem receivedByteIsAccumulated : Obligations.ReceivedByteIsAccumulated := by
  unfold Obligations.ReceivedByteIsAccumulated
  intro s b old hs hold
  obtain rfl : old = s.foundByNextByte := hold
  obtain ⟨t, ht, hr⟩ := execRxByte_justReceived (gathered_found hs) b
  have hcfg : t.cfg = s.cfg := hr.cfg
  have hlen : t.rxLen = min (s.foundByNextByte.length + 1) s.cfg.rxCap := by
    rw [hr.gathered.rxLen hr.fresh, List.length_append, hcfg]
    rfl
  refine ⟨t.rxBuf, ?_, hcfg ▸ hr.gathered.room, ?_⟩
  · have hframe := execRxByte_frame ht
    obtain rfl := Host.Outcome.next.inj ht
    rw [← hlen]
    exact (congrArg Host.Outcome.next hframe).trans (by simp)
  · rw [← hlen, ← hcfg]
    exact hr.gathered.received hr.fresh

/-- Settles O34: the case of the meaning for each premise, and with nothing in flight the fault. -/
theorem txDoneSendsTheNextByte : Obligations.TxDoneSendsTheNextByte := by
  unfold Obligations.TxDoneSendsTheNextByte
  rintro s r rfl
  refine ⟨fun hf ha hc => ?_, fun hf ha hc => ?_, fun hf ha => ?_, fun hf t ht => ?_⟩
  · simp [exec, execTxDone, txAdvance, restartTimer, hf, ha, hc]
  · simp [exec, execTxDone, txAdvance, restartTimer, hf, ha, hc]
  · simp [exec, execTxDone, restartTimer, hf, ha]
  · nomatch (execTxDone_inflight ht).symm.trans hf

/-- All TX_DONE can do, if it answers: hand over the next byte, end the transmission, or send nothing. -/
theorem execTxDone_next {s t : State} (ht : execTxDone s = .next t) : s.txInflight = true ∧
    ((s.txState = .txActive ∧ s.txCur + 1 < s.txLen ∧ t = { restartTimer s with
        txCur := s.txCur + 1, outputs := s.outputs ++ [.txOut (s.txBuf.getD (s.txCur + 1) 0)] }) ∨
      (s.txState = .txActive ∧ s.txLen ≤ s.txCur + 1 ∧ t = { restartTimer s with
        txCur := s.txCur + 1, txInflight := false, txState := .txIdle }) ∨
      (s.txState ≠ .txActive ∧ t = { restartTimer s with txInflight := false })) := by
  have hf : s.txInflight = true := execTxDone_inflight ht
  obtain ⟨hnext, hlast, hother, -⟩ := txDoneSendsTheNextByte s _ rfl
  refine ⟨hf, ?_⟩
  by_cases ha : s.txState = .txActive
  · rcases Nat.lt_or_ge (s.txCur + 1) s.txLen with hc | hc
    · exact .inl ⟨ha, hc, Host.Outcome.next.inj (ht.symm.trans (hnext hf ha hc))⟩
    · exact .inr (.inl ⟨ha, hc, Host.Outcome.next.inj (ht.symm.trans (hlast hf ha hc))⟩)
  · exact .inr (.inr ⟨ha, Host.Outcome.next.inj (ht.symm.trans (hother hf ha))⟩)

/-! ### The invariants, operation by operation (R154) -/

/-- All that a held response and its well-formedness are read from (R32). -/
def State.dispatcherOutput (s : State) : Config × DispPhase × List Byte × Nat := (s.cfg, s.dispPhase, s.dispOut, s.dispOutLen)

/-- An operation that leaves the dispatcher's output leaves a held response complete. -/
theorem holdingFull_of_dispatcherOutput {s t : State} (hs : s.Inv) (h : t.dispatcherOutput = s.dispatcherOutput) :
    t.dispPhase = .holding → t.HeldFrameOk := by
  simp only [State.dispatcherOutput, Prod.mk.injEq] at h
  obtain ⟨hcfg, hphase, hout, hlen⟩ := h
  intro hp
  obtain ⟨h5, hfits, hstation, hcrc⟩ := hs.holdingFull (hphase ▸ hp)
  have hframe : t.heldFrame = s.heldFrame := by rw [State.heldFrame, hout, hlen, State.heldFrame]
  exact ⟨hlen ▸ h5, hlen ▸ hcfg ▸ hfits, hframe ▸ hcfg ▸ hstation, hframe ▸ hcrc⟩

/-- RESET's state under a legal configuration (R250, R253). -/
theorem inv_afterReset {c : Config} (hc : legalConfig c = true) : (State.afterReset c).Inv := by
  obtain ⟨-, h15, hlt, -, -, -, -, -, -, hmem⟩ := (legalConfig_iff c).mp hc
  exact {
    legal := hc
    rxBufLength := List.length_replicate
    mbBufLength := List.length_replicate
    txBufLength := List.length_replicate
    dispOutLength := List.length_replicate
    rxFits := Nat.zero_le _
    mbFits := Nat.zero_le _
    txFits := Nat.zero_le _
    cursor := Nat.le_refl _
    accumulating := iff_of_false nofun (Nat.lt_irrefl 0)
    idleQuiet := fun _ => rfl
    activeSending := nofun
    pendingFilled := nofun
    midIffCount := iff_of_false nofun (Nat.not_le.mpr h15)
    endIffCount := iff_of_false nofun (Nat.ne_of_lt (Nat.zero_lt_of_lt hlt))
    haltIffCount := iff_of_false nofun (Nat.ne_of_lt (Nat.zero_lt_of_lt hlt))
    countBound := Nat.zero_le _
    haltedEmpty := nofun
    readyEmpty := fun _ => rfl
    holdingFull := nofun
    memory := hmem }

/-- No invariant speaks of the events to come or the outputs so far. -/
theorem inv_records {s : State} (hs : s.Inv) (input : List Event) (outputs : List Output) :
    ({ s with input := input, outputs := outputs } : State).Inv :=
  { hs with holdingFull := holdingFull_of_dispatcherOutput hs rfl }

theorem inv_restartTimer {s : State} (hs : s.Inv) : (restartTimer s).Inv := by
  obtain ⟨-, h15, hlt, -⟩ := (legalConfig_iff s.cfg).mp hs.legal
  exact { hs with
    midIffCount := iff_of_false nofun (Nat.not_le.mpr h15)
    endIffCount := iff_of_false nofun (Nat.ne_of_lt (Nat.zero_lt_of_lt hlt))
    haltIffCount := iff_of_false nofun (Nat.ne_of_lt (Nat.zero_lt_of_lt hlt))
    countBound := Nat.zero_le _
    haltedEmpty := nofun
    holdingFull := holdingFull_of_dispatcherOutput hs rfl }

/-- A tick below T35_TICKS sets the mid latch exactly when the count reaches T15_TICKS (R123, R124). -/
theorem inv_midTimeout_countTick {s : State} (hs : s.Inv) (hr : s.timRun = true) (hc : s.timCount + 1 ≠ s.cfg.t35Ticks) :
    (midTimeout (countTick s)).Inv := by
  have hmid := hs.midIffCount
  have hend := hs.endIffCount
  have hbound := hs.countBound
  have hrun : s.timCount ≠ s.cfg.t35Ticks := fun h => nomatch hr.symm.trans (hs.haltIffCount.mpr h)
  rw [midTimeout_countTick_eq]
  exact { hs with
    midIffCount := by
      simp only [Bool.or_eq_true, decide_eq_true_eq, hmid]
      omega
    endIffCount := iff_of_false (fun h => hrun (hend.mp h)) hc
    haltIffCount := iff_of_false (ne_false_of_eq_true hr) hc
    countBound := by
      show s.timCount + 1 ≤ s.cfg.t35Ticks
      omega
    haltedEmpty := fun h => nomatch hr.symm.trans h
    holdingFull := holdingFull_of_dispatcherOutput hs rfl }

/-- The end-timeout halts the timer and empties the accumulator into the mailbox (R125, R143). -/
theorem inv_endOfFrame {s : State} (hs : s.Inv) (hc : s.timCount + 1 = s.cfg.t35Ticks) :
    (endOfFrame (fireEnd (countTick s))).Inv := by
  obtain ⟨-, -, hlt, -⟩ := (legalConfig_iff s.cfg).mp hs.legal
  have hmid : s.midFired = true ↔ s.cfg.t15Ticks ≤ s.timCount + 1 := by
    rw [hs.midIffCount]
    omega
  rw [endOfFrame_eq]
  exact { hs with
    mbBufLength := by
      dsimp only
      split
      · exact hs.mbBufLength
      · exact (overlay_received hs).right
    mbFits := by
      dsimp only
      split
      · exact hs.mbFits
      · exact hs.rxFits
    rxFits := Nat.zero_le _
    accumulating := iff_of_false nofun (Nat.lt_irrefl 0)
    midIffCount := hmid
    endIffCount := iff_of_true rfl hc
    haltIffCount := iff_of_true rfl hc
    countBound := Nat.le_of_eq hc
    haltedEmpty := fun _ => rfl
    holdingFull := holdingFull_of_dispatcherOutput hs rfl }

/-- `TX_Arm()` with a frame to send (R148). -/
theorem inv_txArm {s : State} (hs : s.Inv) (h : 0 < s.txLen) : (txArm s).Inv :=
  { hs with
    cursor := Nat.zero_le _
    idleQuiet := nofun
    activeSending := fun _ => ⟨rfl, h⟩
    pendingFilled := nofun
    holdingFull := holdingFull_of_dispatcherOutput hs rfl }

theorem inv_txEndTimeoutGate {s : State} (hs : s.Inv) : (txEndTimeoutGate s).Inv := by
  unfold txEndTimeoutGate
  split
  case isTrue h => exact inv_txArm hs (hs.pendingFilled h.left)
  case isFalse => exact hs

/-- `write` of a frame that fits: the frame waits, or is armed (R146, R147). -/
theorem inv_faWrite {s : State} (hs : s.Inv) {bytes : List Byte} (h0 : bytes ≠ []) (hc : bytes.length ≤ s.cfg.txCap) :
    (faWrite bytes s).2.Inv := by
  have hpos : 0 < bytes.length := List.length_pos_iff.mpr h0
  have hwaiting : ({ s with
      txBuf := overlay bytes s.txBuf, txLen := bytes.length, txCur := 0, txState := .txPending } : State).Inv :=
    { hs with
      txBufLength := (overlay_length (hs.txBufLength ▸ hc)).trans hs.txBufLength
      txFits := hc
      cursor := Nat.zero_le _
      idleQuiet := nofun
      activeSending := nofun
      pendingFilled := fun _ => hpos
      holdingFull := holdingFull_of_dispatcherOutput hs rfl }
  rw [faWrite_eq h0 hc]
  dsimp only
  split
  · exact (inv_txArm hwaiting hpos :)
  · exact hwaiting

/-- A request answered: a store in canonical form, and a reply that fits held for EMIT (R178 to R180). -/
theorem inv_answer {s t : State} (hs : s.Inv) {fc : Byte} {h : Store × Reply} (hm : Memory.wf s.cfg h.1)
    (hf : h.2.Fits s.cfg.txCap) (ht : answer fc h s = .next t) : t.Inv := by
  obtain ⟨-, -, -, -, h8, -⟩ := (legalConfig_iff s.cfg).mp hs.legal
  obtain ⟨-, rfl⟩ := answer_next ht
  obtain ⟨-, hfits⟩ := replyFrame_bounds (addr := s.cfg.localAddr) (fc := fc) h8 hf
  exact { hs with
    dispOutLength := (overlay_length (hs.dispOutLength ▸ hfits)).trans hs.dispOutLength
    readyEmpty := nofun
    holdingFull := fun _ => holdFrame_replyFrame_ok (s := { s with store := h.1 }) h8 hf
    memory := hm }

/-! ### The invariants, event by event -/

theorem inv_execRxByte {b : Byte} {s t : State} (hs : s.Inv) (ht : execRxByte b s = .next t) : t.Inv := by
  obtain ⟨-, -, -, hcap, -⟩ := (legalConfig_iff s.cfg).mp hs.legal
  obtain ⟨buf, hbyte, hroom, -⟩ := receivedByteIsAccumulated s b _ hs rfl
  obtain rfl := Host.Outcome.next.inj (hbyte.symm.trans ht)
  exact { inv_restartTimer hs with
    rxBufLength := hroom
    rxFits := Nat.min_le_right _ _
    accumulating := iff_of_true rfl (Nat.lt_min.mpr ⟨Nat.succ_pos _, by omega⟩)
    haltedEmpty := nofun
    holdingFull := holdingFull_of_dispatcherOutput hs rfl }

theorem inv_execTxDone {s t : State} (hs : s.Inv) (ht : execTxDone s = .next t) : t.Inv := by
  have hr : (restartTimer s).Inv := inv_restartTimer hs
  have hheld : t.dispPhase = .holding → t.HeldFrameOk :=
    holdingFull_of_dispatcherOutput hs (by rw [execTxDone_frame ht]; rfl)
  obtain ⟨hf, ⟨-, hc, rfl⟩ | ⟨ha, -, rfl⟩ | ⟨ha, rfl⟩⟩ := execTxDone_next ht
  · exact { hr with cursor := hc.le, activeSending := fun _ => ⟨hf, hc⟩, holdingFull := hheld }
  · exact { hr with
      cursor := (hs.activeSending ha).right
      idleQuiet := fun _ => rfl
      activeSending := nofun
      pendingFilled := nofun
      holdingFull := hheld }
  · exact { hr with
      idleQuiet := fun _ => rfl
      activeSending := fun h => absurd h ha
      holdingFull := hheld }

theorem inv_execTick {s t : State} (hs : s.Inv) (ht : execTick s = .next t) : t.Inv := by
  obtain ⟨-, -, hlt, -⟩ := (legalConfig_iff s.cfg).mp hs.legal
  cases hr : s.timRun with
  | false =>
    obtain rfl := Host.Outcome.next.inj ((execTick_halted hr).symm.trans ht)
    exact hs
  | true =>
    by_cases hc : s.timCount + 1 = s.cfg.t35Ticks
    · obtain rfl := Host.Outcome.next.inj ((execTick_end hr hc hlt).symm.trans ht)
      exact inv_txEndTimeoutGate (inv_endOfFrame hs hc)
    · obtain rfl := Host.Outcome.next.inj ((execTick_below hr hc).symm.trans ht)
      exact inv_midTimeout_countTick hs hr hc

/-- A read of the mailbox empties it (R145). -/
theorem inv_mailboxEmptied {s : State} (hs : s.Inv) : ({ s with mbLen := 0 } : State).Inv :=
  { hs with mbFits := Nat.zero_le _, holdingFull := holdingFull_of_dispatcherOutput hs rfl }

theorem inv_execDispatch {s t : State} (hs : s.Inv) (ht : exec .dispatch s = .next t) : t.Inv := by
  obtain ⟨-, ⟨-, rfl⟩ | rfl | rfl | ⟨i, -, hi, hrun⟩⟩ := execDispatch_next ht
  · exact hs
  · exact inv_mailboxEmptied hs
  · exact inv_records (inv_mailboxEmptied hs) _ _
  · obtain ⟨-, -, -, -, h8, -⟩ := (legalConfig_iff s.cfg).mp hs.legal
    have hread := inv_records (inv_mailboxEmptied hs) s.input (s.outputs ++ diagOutputs s s.mailbox)
    obtain ⟨-, reply, hanswer, ⟨hsame, hfits, -⟩ | ⟨-, sp, -, hwrite⟩⟩ := runRequest_answer hi
      { s with mbLen := 0, outputs := s.outputs ++ diagOutputs s s.mailbox }
    · exact inv_answer hread (hsame ▸ hs.memory) hfits (hanswer.symm.trans hrun)
    · exact inv_answer hread (hwrite.wf hs.memory) (hwrite.fits h8) (hanswer.symm.trans hrun)

theorem heldFrame_length {s : State} (hs : s.Inv) (hp : s.dispPhase = .holding) : s.heldFrame.length = s.dispOutLen :=
  List.length_take_of_le (hs.dispOutLength ▸ (hs.holdingFull hp).fits)

theorem heldFrame_ne_nil {s : State} (hs : s.Inv) (hp : s.dispPhase = .holding) : s.heldFrame ≠ [] := by
  have h5 := (hs.holdingFull hp).enough
  rw [← heldFrame_length hs hp] at h5
  exact List.ne_nil_of_length_pos (by omega)

theorem heldFrame_fits {s : State} (hs : s.Inv) (hp : s.dispPhase = .holding) : s.heldFrame.length ≤ s.cfg.txCap :=
  heldFrame_length hs hp ▸ (hs.holdingFull hp).fits

theorem execEmit_of_holding {s : State} (hp : s.dispPhase = .holding) :
    execEmit s = .next { (faWrite s.heldFrame s).2 with dispOutLen := 0, dispPhase := .ready } :=
  if_pos hp

theorem inv_execEmit {s t : State} (hs : s.Inv) (ht : execEmit s = .next t) : t.Inv := by
  have hp : s.dispPhase = .holding := execEmit_holding ht
  have hw : (faWrite s.heldFrame s).2.Inv := inv_faWrite hs (heldFrame_ne_nil hs hp) (heldFrame_fits hs hp)
  obtain rfl := Host.Outcome.next.inj ((execEmit_of_holding hp).symm.trans ht)
  exact { hw with readyEmpty := fun _ => rfl, holdingFull := nofun }

/-- Every event that answers keeps the invariants. -/
theorem exec_event_keeps_inv {e : Event} {s t : State} (hs : s.Inv) (ht : exec e.instr s = .next t) : t.Inv := by
  cases e with
  | rxByte => exact inv_execRxByte hs ht
  | txDone => exact inv_execTxDone hs ht
  | tick => exact inv_execTick hs ht
  | dispatch => exact inv_execDispatch hs ht
  | emit => exact inv_execEmit hs ht
  | hostRead =>
    obtain ⟨-, rfl⟩ := execHostRead_next ht
    exact inv_records hs _ _
  | hostWrite =>
    obtain ⟨ha, rfl⟩ := execHostWrite_next ht
    exact { hs with memory := memoryWf_memWrite hs.memory ha, holdingFull := holdingFull_of_dispatcherOutput hs rfl }
  | reset =>
    obtain ⟨hc, rfl⟩ := execReset_next ht
    exact inv_records (inv_afterReset hc) _ _

/-- Settles O47: a step is an event's instruction on the state with that event taken, and every event keeps the invariants. -/
theorem everyStepKeepsTheInvariants : Obligations.EveryStepKeepsTheInvariants := by
  unfold Obligations.EveryStepKeepsTheInvariants
  intro s t hs ht
  obtain ⟨-, rfl⟩ | ⟨e, rest, -, -, hexec⟩ := step_next ht
  · exact hs
  · exact exec_event_keeps_inv (inv_records hs rest s.outputs) hexec

/-- Settles O48: the reference configuration is legal. -/
theorem resetMeetsTheInvariants : Obligations.ResetMeetsTheInvariants :=
  inv_afterReset (by decide)

/-! ### A pending frame with a byte in flight (R154 item 7) -/

/-- The transmit gate and whether a byte is in flight (R30, R31). -/
def State.transmitter (s : State) : TxState × Bool := (s.txState, s.txInflight)

theorem answer_keeps_transmitter {fc : Byte} {h : Store × Reply} {s t : State} (ht : answer fc h s = .next t) :
    t.transmitter = s.transmitter := by
  rw [answer_frame ht]
  rfl

/-- TX_DONE leaves a byte in flight only while the transmission goes on (R149). -/
theorem execTxDone_transmitter {s t : State} (ht : execTxDone s = .next t) (hf : t.txInflight = true) :
    t.txState = .txActive := by
  obtain ⟨-, ⟨ha, -, rfl⟩ | ⟨-, -, rfl⟩ | ⟨-, rfl⟩⟩ := execTxDone_next ht
  · exact ha
  · nomatch hf
  · nomatch hf

/-- A tick leaves the transmitter, or its deferred transmit makes it active (R150). -/
theorem execTick_transmitter {s t : State} (ht : execTick s = .next t) :
    t.transmitter = s.transmitter ∨ t.txState = .txActive := by
  obtain rfl := Host.Outcome.next.inj ht
  unfold endTimeout txEndTimeoutGate
  split
  · split
    · split
      · exact .inr rfl
      · exact .inl (by simp [State.transmitter])
    · exact .inl (by simp [State.transmitter])
  · exact .inl rfl

/-- EMIT leaves a byte in flight only where there was one, or in an armed transmission (R146 to R148). -/
theorem execEmit_transmitter {s t : State} (hs : s.Inv) (ht : execEmit s = .next t) :
    t.txInflight = s.txInflight ∨ t.txState = .txActive := by
  have hp : s.dispPhase = .holding := execEmit_holding ht
  obtain rfl := Host.Outcome.next.inj ((execEmit_of_holding hp).symm.trans ht)
  rw [faWrite_eq (heldFrame_ne_nil hs hp) (heldFrame_fits hs hp)]
  dsimp only
  split
  · exact .inr rfl
  · exact .inl rfl

/-- Settles O41: TX_DONE and TICK reach such a state from no other, EMIT only with a byte in flight, so from a pending frame or a
transmission, and no other instruction writes the transmitter but RESET, which idles it. -/
theorem pendingInFlightOnlyAfterOverwrite : Obligations.PendingInFlightOnlyAfterOverwrite := by
  unfold Obligations.PendingInFlightOnlyAfterOverwrite
  intro i s t hs h hpend hfly
  have hactive : t.txState ≠ .txActive := by simp [hpend]
  have kept : t.transmitter = s.transmitter → s.txState = .txPending ∧ s.txInflight = true := fun hk => by
    obtain ⟨hstate, hinflight⟩ := Prod.mk.inj hk
    exact ⟨hstate ▸ hpend, hinflight ▸ hfly⟩
  cases i with
  | rdcoil | rddi | rdhr | rdir | wrcoil | wrhr | wrcoils | wrhrs => exact .inl (kept (answer_keeps_transmitter h))
  | illfn => exact .inl (kept (answer_keeps_transmitter (h := (s.store, .exception .illegalFunction)) h))
  | rxByte => exact .inl (kept (by rw [execRxByte_frame h]; rfl))
  | txDone => exact absurd (execTxDone_transmitter h hfly) hactive
  | tick => exact .inl (kept ((execTick_transmitter h).resolve_right hactive))
  | dispatch => exact .inl (kept (by rw [(execDispatch_changes h).left]; rfl))
  | emit =>
    have hbefore : s.txInflight = true := ((execEmit_transmitter hs h).resolve_right hactive).symm.trans hfly
    cases hstate : s.txState with
    | txIdle => nomatch (hs.idleQuiet hstate).symm.trans hbefore
    | txPending => exact .inl ⟨rfl, hbefore⟩
    | txActive => exact .inr ⟨rfl, rfl⟩
  | hostRead => exact .inl (kept (by rw [(execHostRead_next h).right]; rfl))
  | hostWrite => exact .inl (kept (by rw [(execHostWrite_next h).right]; rfl))
  | reset =>
    rw [(execReset_next h).right] at hpend
    nomatch hpend

/-! ### The response on the wire (R146 to R151) -/

/-- A transmission with its byte in flight and the bytes `rest` still to be handed over. -/
structure State.Sending (s : State) (rest : List Byte) : Prop where
  active : s.txState = .txActive
  inflight : s.txInflight = true
  cursor : s.txCur < s.txLen
  room : s.txLen ≤ s.txBuf.length
  unsent : s.txFrame.drop (s.txCur + 1) = rest

/-- After the last byte there is none to hand over. -/
theorem State.Sending.last {s : State} (h : s.Sending []) : s.txLen = s.txCur + 1 := by
  have hcursor := h.cursor
  have hframe : s.txFrame.length = s.txLen := List.length_take_of_le h.room
  have hnone := List.drop_eq_nil_iff.mp h.unsent
  omega

/-- TX_DONE hands over the byte behind the cursor (R149). -/
theorem State.Sending.execTxDone {s : State} {b : Byte} {rest : List Byte} (h : s.Sending (b :: rest)) :
    ∃ t, exec .txDone s = .next t ∧ t.Sending rest ∧ t.outputs = s.outputs ++ [.txOut b] ∧ t.dispPhase = s.dispPhase := by
  have hbyte : s.txFrame[s.txCur + 1]? = some b := by
    rw [← List.head?_drop, h.unsent, List.head?_cons]
  rw [State.txFrame, List.getElem?_take, Option.ite_none_right_eq_some] at hbyte
  obtain ⟨hlt, hbuf⟩ := hbyte
  obtain ⟨hnext, -⟩ := txDoneSendsTheNextByte s _ rfl
  refine ⟨_, hnext h.inflight h.active hlt, ⟨h.active, h.inflight, hlt, h.room, ?_⟩, ?_, rfl⟩
  · exact List.tail_drop.symm.trans (congrArg List.tail h.unsent)
  · rw [List.getD_eq_getElem?_getD, hbuf, Option.getD_some]

/-- What a transmission from `s` leaves when `bs` has gone out and the transmitter is idle again (R151). -/
structure State.Sent (s : State) (bs : List Byte) (t : State) : Prop where
  outputs : t.outputs = s.outputs ++ bs.map .txOut
  idle : t.txState = .txIdle
  quiet : t.txInflight = false
  whole : t.txCur = t.txLen
  phase : t.dispPhase = s.dispPhase

/-- One TX_DONE per byte in flight and to come hands over the rest of the frame in order and ends the transmission. -/
theorem play_txDone_sends {rest : List Byte} {s : State} (h : s.Sending rest) :
    ∃ t, play (List.replicate (rest.length + 1) .txDone) s = .next t ∧ s.Sent rest t := by
  induction rest generalizing s with
  | nil =>
    obtain ⟨-, hlast, -⟩ := txDoneSendsTheNextByte s _ rfl
    have hlen := h.last
    refine ⟨_, (play_singleton _ s).trans (hlast h.inflight h.active hlen.le), ?_, rfl, rfl, hlen.symm, rfl⟩
    exact (List.append_nil _).symm
  | cons b rest ih =>
    obtain ⟨u, hu, hsending, hout, hphase⟩ := h.execTxDone
    obtain ⟨t, ht, hsent⟩ := ih hsending
    refine ⟨t, ?_, { hsent with outputs := ?_, phase := hsent.phase.trans hphase }⟩
    · exact (play_append_next (xs := [.txDone]) ((play_singleton .txDone s).trans hu)).trans ht
    · rw [hsent.outputs, hout, List.append_assoc]
      rfl

/-- EMIT on a silent bus with the transmitter free hands over the first byte of the held frame (R146, R148, R181). -/
theorem execEmit_sending {s : State} {b : Byte} {rest : List Byte} (hs : s.Inv) (hp : s.dispPhase = .holding)
    (hsilent : s.endFired = true) (hfree : s.txInflight = false) (ha : s.txState ≠ .txActive)
    (hheld : s.heldFrame = b :: rest) :
    ∃ t, execEmit s = .next t ∧ t.Sending rest ∧ t.outputs = s.outputs ++ [.txOut b] ∧ t.dispPhase = .ready := by
  have hfits := heldFrame_fits hs hp
  have hwrite := faWrite_eq (heldFrame_ne_nil hs hp) hfits
  dsimp only at hwrite
  rw [if_pos ⟨ha, hsilent, hfree⟩, hheld] at hwrite
  rw [hheld] at hfits
  have hroom := overlay_length (hs.txBufLength ▸ hfits)
  refine ⟨_, execEmit_of_holding hp, ?_, ?_, rfl⟩
  · rw [hheld, hwrite]
    refine ⟨rfl, rfl, Nat.succ_pos _, ?_, ?_⟩
    · exact hfits.trans (hroom.trans hs.txBufLength).ge
    · exact congrArg List.tail (overlay_take (b :: rest) s.txBuf)
  · rw [hheld, hwrite]
    rfl

/-- Settles O39: EMIT hands over the first byte of the held frame, and one TX_DONE per byte the others. -/
theorem responseReachesTheWireWhole : Obligations.ResponseReachesTheWireWhole := by
  unfold Obligations.ResponseReachesTheWireWhole
  intro s hs hp hsilent hfree ha
  obtain ⟨b, rest, hheld⟩ := List.exists_cons_of_ne_nil (heldFrame_ne_nil hs hp)
  have hlen : s.dispOutLen = rest.length + 1 := by
    rw [← heldFrame_length hs hp, hheld, List.length_cons]
  obtain ⟨u, hu, hsending, hout, hready⟩ := execEmit_sending hs hp hsilent hfree ha hheld
  obtain ⟨t, ht, hsent⟩ := play_txDone_sends hsending
  refine ⟨t, ?_, ?_, hsent.idle, hsent.quiet, hsent.whole, hsent.phase.trans hready⟩
  · rw [hlen]
    exact (play_append_next (xs := [.emit]) ((play_singleton _ s).trans hu)).trans ht
  · rw [hsent.outputs, hout, hheld]
    simp

end Sys2Proof.Machine

/-! PROOFS. The foreground's two steps (spec/43_dispatcher.md): the frames DISPATCH drops, the request it runs, the one answer it
holds and the store it may change; EMIT, all of it (R181); and the diagnostic hook, which none of them reads (R173, R240). -/

namespace Sys2Proof.Machine

/-! ### The frames DISPATCH drops, and the one it runs (R172 to R177, R88) -/

/-- Why a frame of at least 4 bytes is dropped: another station, a wrong CRC, or no request in it (R174, R175, R88). -/
def FrameDropped (addr : Byte) (f : List Byte) : Prop :=
  f.getD 0 0 ≠ addr ∨ ¬ crcPasses f ∨ ∃ why, decode (framePdu f) = .rejected why

/-- A frame is dropped, or passes the checks and decodes to a request. -/
theorem frameDropped_or_request (addr : Byte) (f : List Byte) :
    FrameDropped addr f ∨ ∃ i, f.getD 0 0 = addr ∧ crcPasses f = true ∧ decode (framePdu f) = .request i := by
  by_cases ha : f.getD 0 0 = addr
  · by_cases hc : crcPasses f = true
    · cases hd : decode (framePdu f) with
      | request i => exact .inr ⟨i, ha, hc, rfl⟩
      | rejected why => exact .inl (.inr (.inr ⟨why, hd⟩))
    · exact .inl (.inr (.inl hc))
  · exact .inl (.inl ha)

theorem execDispatch_empty {s : State} (hr : s.dispPhase = .ready) (hn : s.mbLen = 0) : exec .dispatch s = .next s :=
  (if_pos hr).trans (if_pos hn)

theorem validate_short {f : List Byte} (h : f.length < 4) (s : State) : validate f s = .next s := if_pos h

theorem validate_dropped {f : List Byte} {s : State} (h4 : 4 ≤ f.length) (h : FrameDropped s.cfg.localAddr f) :
    validate f s = .next { s with outputs := s.outputs ++ diagOutputs s f } := by
  unfold validate
  rw [if_neg (Nat.not_lt.mpr h4), diagnose_eq]
  dsimp only
  by_cases ha : f.getD 0 0 = s.cfg.localAddr
  · rw [if_neg (not_not.mpr ha)]
    by_cases hc : crcPasses f = true
    · obtain ⟨why, hd⟩ := (h.resolve_left (not_not.mpr ha)).resolve_left (not_not.mpr hc)
      rw [if_neg (not_not.mpr hc), hd]
    · rw [if_pos hc]
  · rw [if_pos ha]

/-- The PDU of a frame: its byte 1, and the bytes between that and the CRC (R80, R83). -/
theorem framePdu_eq_cons {f : List Byte} (h4 : 4 ≤ f.length) :
    ∃ d, framePdu f = f.getD 1 0 :: d ∧ d.length = f.length - 4 := by
  have hlen : (framePdu f).length = f.length - 3 := by
    simp only [framePdu, List.length_drop, List.length_take]
    omega
  have hcode := framePdu_code h4
  cases hp : framePdu f with
  | nil =>
    rw [hp, List.length_nil] at hlen
    omega
  | cons fc d =>
    rw [hp, List.length_cons] at hlen
    rw [hp, List.getD_cons_zero] at hcode
    exact ⟨d, by rw [hcode], by omega⟩

/-- A frame short of its function's fixed fields holds no request (R88, R98). -/
theorem frameDropped_of_missing_fields (addr : Byte) {f : List Byte} (h4 : 4 ≤ f.length)
    (h : (f.getD 1 0 ∈ [0x01#8, 0x02#8, 0x03#8, 0x04#8, 0x05#8, 0x06#8] ∧ f.length < 8) ∨
      (f.getD 1 0 ∈ [0x0F#8, 0x10#8] ∧ f.length < 9)) : FrameDropped addr f := by
  obtain ⟨d, hpdu, hlen⟩ := framePdu_eq_cons h4
  obtain ⟨hpair, hmulti, -⟩ := shortRequestsAreRejected (f.getD 1 0) d
  have hrejected : decode (framePdu f) = .rejected (.missingFields (f.getD 1 0)) := by
    rw [hpdu]
    rcases h with ⟨hfc, hshort⟩ | ⟨hfc, hshort⟩
    · exact (hpair hfc).mpr (by omega)
    · exact (hmulti hfc).mpr (by omega)
  exact .inr (.inr ⟨_, hrejected⟩)

/-- Settles O15: an empty mailbox is DISPATCH's first case; a frame in it is validated, short or dropped. -/
theorem dispatchDropsSilently : Obligations.DispatchDropsSilently := by
  unfold Obligations.DispatchDropsSilently
  rintro s f hr rfl hlen
  have hframe : s.mailbox ≠ [] → exec .dispatch s = validate s.mailbox { s with mbLen := 0 } := fun hne =>
    execDispatch_frame hr (hlen ▸ mt List.length_eq_zero_iff.mp hne)
  refine ⟨fun h => ?_, fun hpos hshort => ?_, fun h4 hdrop => ?_⟩
  · exact execDispatch_empty hr (hlen.trans (List.length_eq_zero_iff.mpr h))
  · exact (hframe (List.length_pos_iff.mp hpos)).trans (validate_short hshort _)
  · have hdropped : FrameDropped s.cfg.localAddr s.mailbox := by
      rcases hdrop with ha | hc | hfields
      · exact .inl ha
      · exact .inr (.inl fun h => hc (Prod.ext_iff.mpr ((crcPasses_iff s.mailbox).mp h)))
      · exact frameDropped_of_missing_fields _ h4 hfields
    exact (hframe (List.length_pos_iff.mp (Nat.zero_lt_of_lt h4))).trans (validate_dropped h4 hdropped)

/-- Settles O11: `validate_request`, the two CRC bytes being the check that R113 makes. -/
theorem dispatchRunsTheDecodedRequest : Obligations.DispatchRunsTheDecodedRequest := by
  unfold Obligations.DispatchRunsTheDecodedRequest
  rintro s f i hr rfl hn h4 ha hlo hhi hd
  calc exec .dispatch s
      = validate s.mailbox { s with mbLen := 0 } := execDispatch_frame hr hn
    _ = _ := validate_request h4 ha ((crcPasses_iff _).mpr ⟨hlo, hhi⟩) hd

/-! ### At most one answer, and the store behind it (R178, R182, R183) -/

/-- The codes of the requests that write the store (R93). -/
abbrev writeCodes : List Byte := [0x05, 0x06, 0x0F, 0x10]

/-- A request's answer changes the store only if it is the success of a write (R178, R183). -/
theorem exec_request_store {pdu : List Byte} {i : Instr} (h : decode pdu = .request i) (s : State) :
    ∃ hd, exec i s = answer (pdu.getD 0 0) hd s ∧
      (hd.1 ≠ s.store → pdu.getD 0 0 ∈ writeCodes ∧ ∃ p, hd.2 = .success p) := by
  obtain ⟨-, hd, hanswer, ⟨hsame, -⟩ | ⟨hcode, sp, -, ⟨hsame, -⟩ | ⟨a, vs, x, y, rfl, -⟩⟩⟩ := runRequest_answer h s
  · exact ⟨hd, hanswer, fun hne => absurd hsame hne⟩
  · exact ⟨hd, hanswer, fun hne => absurd hsame hne⟩
  · exact ⟨_, hanswer, fun _ => ⟨hcode, _, rfl⟩⟩

/-- All DISPATCH can do, as its outcomes: drop what the mailbox holds, or hold one answer to it (R178, R182). -/
theorem execDispatch_drops_or_answers {s t : State} (ht : exec .dispatch s = .next t) :
    t.mbLen = 0 ∧
    ((t.dispPhase = .ready ∧ t.store = s.store ∧ t.dispOutLen = s.dispOutLen) ∨
     ∃ reply, t.dispPhase = .holding ∧ t.heldFrame = replyFrame s.cfg.localAddr (s.mailbox.getD 1 0) reply ∧
       (t.store ≠ s.store → s.mailbox.getD 1 0 ∈ writeCodes ∧ ∃ p, reply = .success p)) := by
  obtain ⟨hr, ⟨hn, rfl⟩ | rfl | rfl | ⟨i, h4, hi, hrun⟩⟩ := execDispatch_next ht
  · exact ⟨hn, .inl ⟨hr, rfl, rfl⟩⟩
  · exact ⟨rfl, .inl ⟨hr, rfl, rfl⟩⟩
  · exact ⟨rfl, .inl ⟨hr, rfl, rfl⟩⟩
  · obtain ⟨hd, hanswer, hstore⟩ := exec_request_store hi
      { s with mbLen := 0, outputs := s.outputs ++ diagOutputs s s.mailbox }
    rw [framePdu_code h4] at hanswer hstore
    obtain ⟨-, rfl⟩ := answer_next (hanswer.symm.trans hrun)
    exact ⟨rfl, .inr ⟨hd.2, rfl, holdFrame_heldFrame _ _, hstore⟩⟩

/-- Settles O16: DISPATCH completes in the phase Ready, and a frame held afterwards is complete because the invariants are kept. -/
theorem dispatchAnswersAtMostOnce : Obligations.DispatchAnswersAtMostOnce := by
  unfold Obligations.DispatchAnswersAtMostOnce
  intro s hs hr
  obtain ⟨t, ht⟩ := execDispatch_completes hr
  obtain ⟨hempty, ⟨hready, hstore, hout⟩ | ⟨reply, hp, hheld, -⟩⟩ := execDispatch_drops_or_answers ht
  · exact ⟨t, ht, hempty, .inl ⟨hready, hstore, hout.trans (hs.readyEmpty hr)⟩⟩
  · refine ⟨t, ht, hempty, .inr ⟨hp, (inv_execDispatch hs ht).holdingFull hp, ?_⟩⟩
    rw [hheld]
    rcases replyFrame_code s.cfg.localAddr (s.mailbox.getD 1 0) reply with ⟨-, -, hcode⟩ | ⟨-, -, hcode⟩
    · exact .inl hcode
    · exact .inr hcode

/-- Settles O17: a drop leaves the store, and an answer that does not is the success of a write. -/
theorem rejectedRequestsLeaveTheStore : Obligations.RejectedRequestsLeaveTheStore := by
  unfold Obligations.RejectedRequestsLeaveTheStore
  intro s t ht hne
  obtain ⟨-, ⟨-, hstore, -⟩ | ⟨reply, hp, hheld, hwrite⟩⟩ := execDispatch_drops_or_answers ht
  · exact absurd hstore hne
  · obtain ⟨hmem, p, rfl⟩ := hwrite hne
    have hcode : t.heldFrame.getD 1 0 = s.mailbox.getD 1 0 := by
      rw [hheld]
      simp [replyFrame, responseFrame, withCrc]
    exact ⟨hp, hcode ▸ hmem, hcode.symm⟩

/-! ### EMIT, all of it (R146 to R148, R181) -/

/-- The first byte of the transmit buffer after `write` is the held frame's (R148). -/
theorem overlay_heldFrame_head {s : State} (hs : s.Inv) (hp : s.dispPhase = .holding) :
    (overlay s.heldFrame s.txBuf).getD 0 0 = s.dispOut.getD 0 0 := by
  have hpos : 0 < s.dispOutLen := Nat.zero_lt_of_lt (hs.holdingFull hp).enough
  have hheld : 0 < s.heldFrame.length := heldFrame_length hs hp ▸ hpos
  rw [overlay, List.getD_append _ _ _ _ hheld, State.heldFrame, List.getD_eq_getElem?_getD, List.getElem?_take_of_lt hpos,
    List.getD_eq_getElem?_getD]

/-- Settles O35: EMIT is `write` of the held frame, which is not empty and fits, so `write` takes one of its two branches. -/
theorem emitFillsAndArms : Obligations.EmitFillsAndArms := by
  unfold Obligations.EmitFillsAndArms
  intro s hs hp
  have hlen := heldFrame_length hs hp
  have hfits := heldFrame_fits hs hp
  refine ⟨overlay s.heldFrame s.txBuf, ?_, ?_, ?_⟩
  · calc (overlay s.heldFrame s.txBuf).take s.dispOutLen
        = (overlay s.heldFrame s.txBuf).take s.heldFrame.length := by rw [hlen]
      _ = s.heldFrame := overlay_take _ _
  · exact (overlay_length (hs.txBufLength ▸ hfits)).trans hs.txBufLength
  · have hemit : exec .emit s = .next { (faWrite s.heldFrame s).2 with dispOutLen := 0, dispPhase := .ready } :=
      execEmit_of_holding hp
    rw [hemit, faWrite_eq (heldFrame_ne_nil hs hp) hfits, hlen, ← overlay_heldFrame_head hs hp]
    dsimp only
    split <;> rfl

/-! ### The diagnostic hook (R173, R240) -/

/-- The state with HAS_DIAG set to `h`. -/
def State.withHook (h : Bool) (s : State) : State := { s with cfg := { s.cfg with hasDiag := h } }

theorem capacity_withHook (h : Bool) (s : State) (sp : Space) :
    (s.withHook h).cfg.capacity sp = s.cfg.capacity sp := by
  cases sp <;> rfl

/-- The outputs that are not DIAG. -/
def visible (os : List Output) : List Output := os.filter fun o => o matches .txOut _ | .hostValue _

/-- `u` is `t` but for HAS_DIAG, which is `h`, and DIAG outputs. -/
def SameButDiag (h : Bool) (t u : State) : Prop :=
  ∃ os, u = { t.withHook h with outputs := os } ∧ visible os = visible t.outputs

theorem sameButDiag_withHook (h : Bool) (s : State) : SameButDiag h s (s.withHook h) := ⟨s.outputs, rfl, rfl⟩

/-- With the hook or without, a frame's DIAG is not among the visible outputs. -/
theorem visible_append_diagOutputs (os : List Output) (s : State) (f : List Byte) :
    visible (os ++ diagOutputs s f) = visible os := by
  unfold visible diagOutputs
  cases s.cfg.hasDiag <;> simp

theorem sameButDiag_diagnosed (h : Bool) (s : State) (f : List Byte) :
    SameButDiag h { s with outputs := s.outputs ++ diagOutputs s f }
      { s.withHook h with outputs := s.outputs ++ diagOutputs (s.withHook h) f } :=
  ⟨_, rfl, (visible_append_diagOutputs _ _ _).trans (visible_append_diagOutputs _ _ _).symm⟩

theorem discardStale_withHook (h : Bool) (s : State) : discardStale (s.withHook h) = (discardStale s).withHook h := by
  simp only [discardStale, apply_ite (State.withHook h)]
  rfl

theorem accumulate_withHook (h : Bool) (b : Byte) (s : State) :
    accumulate b (s.withHook h) = (accumulate b s).withHook h := by
  simp only [accumulate, apply_ite (State.withHook h)]
  rfl

theorem midTimeout_withHook (h : Bool) (s : State) : midTimeout (s.withHook h) = (midTimeout s).withHook h := by
  simp only [midTimeout, apply_ite (State.withHook h)]
  rfl

theorem endOfFrame_withHook (h : Bool) (s : State) : endOfFrame (s.withHook h) = (endOfFrame s).withHook h := by
  simp only [endOfFrame, apply_ite (State.withHook h)]
  rfl

theorem txEndTimeoutGate_withHook (h : Bool) (s : State) :
    txEndTimeoutGate (s.withHook h) = (txEndTimeoutGate s).withHook h := by
  simp only [txEndTimeoutGate, apply_ite (State.withHook h)]
  rfl

theorem endTimeout_withHook (h : Bool) (s : State) : endTimeout (s.withHook h) = (endTimeout s).withHook h := by
  simp only [endTimeout, apply_ite (State.withHook h), ← txEndTimeoutGate_withHook, ← endOfFrame_withHook]
  rfl

theorem faWrite_withHook (h : Bool) (bytes : List Byte) (s : State) :
    (faWrite bytes (s.withHook h)).2 = (faWrite bytes s).2.withHook h := by
  simp only [faWrite, apply_ite Prod.snd, apply_ite (State.withHook h)]
  rfl

theorem execRxByte_withHook (h : Bool) {b : Byte} {s t : State} (ht : execRxByte b s = .next t) :
    execRxByte b (s.withHook h) = .next (t.withHook h) := by
  obtain rfl := Host.Outcome.next.inj ht
  have hbyte : accumulate b (restartTimer (discardStale (s.withHook h))) =
      (accumulate b (restartTimer (discardStale s))).withHook h := by
    rw [discardStale_withHook, ← accumulate_withHook]
    rfl
  rw [execRxByte, hbyte]
  rfl

theorem execTxDone_withHook (h : Bool) {s t : State} (ht : execTxDone s = .next t) :
    execTxDone (s.withHook h) = .next (t.withHook h) := by
  obtain ⟨hnext, hlast, hother, -⟩ := txDoneSendsTheNextByte (s.withHook h) _ rfl
  obtain ⟨hf, ⟨ha, hc, rfl⟩ | ⟨ha, hc, rfl⟩ | ⟨ha, rfl⟩⟩ := execTxDone_next ht
  · exact hnext hf ha hc
  · exact hlast hf ha hc
  · exact hother hf ha

theorem execTick_withHook (h : Bool) {s t : State} (ht : execTick s = .next t) :
    execTick (s.withHook h) = .next (t.withHook h) := by
  obtain rfl := Host.Outcome.next.inj ht
  rw [execTick, apply_ite (State.withHook h), ← endTimeout_withHook, ← midTimeout_withHook]
  rfl

theorem execEmit_withHook (h : Bool) {s t : State} (ht : execEmit s = .next t) :
    execEmit (s.withHook h) = .next (t.withHook h) := by
  have hp : s.dispPhase = .holding := execEmit_holding ht
  obtain rfl := Host.Outcome.next.inj ((execEmit_of_holding hp).symm.trans ht)
  rw [execEmit_of_holding (s := s.withHook h) hp, faWrite_withHook]
  rfl

/-- A request's answer reads neither the hook nor the outputs. -/
theorem answer_sameButDiag {h : Bool} {fc : Byte} {hd : Store × Reply} {s s' t : State} (hs : SameButDiag h s s')
    (ht : answer fc hd s = .next t) : ∃ u, answer fc hd s' = .next u ∧ SameButDiag h t u := by
  obtain ⟨os, rfl, hos⟩ := hs
  obtain ⟨hr, rfl⟩ := answer_next ht
  exact ⟨_, answer_ready fc hd hr, os, rfl, hos⟩

theorem exec_request_sameButDiag {h : Bool} {i : Instr} {pdu : List Byte} {s s' t : State} (hi : decode pdu = .request i)
    (hs : SameButDiag h s s') (ht : exec i s = .next t) : ∃ u, exec i s' = .next u ∧ SameButDiag h t u := by
  obtain ⟨-, bytes, -, hbytes, -⟩ := decodedBytesBeginWithTheEncoding pdu i hi
  obtain ⟨os, rfl, hos⟩ := hs
  cases i with
  | rdcoil | rddi | rdhr | rdir | wrcoil | wrhr | wrcoils | wrhrs => exact answer_sameButDiag ⟨os, rfl, hos⟩ ht
  | illfn => exact answer_sameButDiag (hd := (s.store, .exception .illegalFunction)) ⟨os, rfl, hos⟩ ht
  | rxByte | txDone | tick | dispatch | emit | hostRead | hostWrite | reset => nomatch hbytes

/-- A short frame has no DIAG, a dropped one has it at most, and a request runs behind it. -/
theorem validate_withHook (h : Bool) {f : List Byte} {s t : State} (ht : validate f s = .next t) :
    ∃ u, validate f (s.withHook h) = .next u ∧ SameButDiag h t u := by
  rcases Nat.lt_or_ge f.length 4 with hshort | h4
  · obtain rfl := Host.Outcome.next.inj ((validate_short hshort s).symm.trans ht)
    exact ⟨_, validate_short hshort _, sameButDiag_withHook h s⟩
  · rcases frameDropped_or_request s.cfg.localAddr f with hdrop | ⟨i, ha, hc, hi⟩
    · obtain rfl := Host.Outcome.next.inj ((validate_dropped h4 hdrop).symm.trans ht)
      exact ⟨_, validate_dropped (s := s.withHook h) h4 hdrop, sameButDiag_diagnosed h s f⟩
    · rw [validate_request h4 ha hc hi] at ht
      rw [validate_request (s := s.withHook h) h4 ha hc hi]
      exact exec_request_sameButDiag hi (sameButDiag_diagnosed h s f) ht

theorem execDispatch_withHook (h : Bool) {s t : State} (ht : exec .dispatch s = .next t) :
    ∃ u, exec .dispatch (s.withHook h) = .next u ∧ SameButDiag h t u := by
  obtain ⟨hr, -⟩ := execDispatch_next ht
  by_cases hn : s.mbLen = 0
  · obtain rfl := Host.Outcome.next.inj ((execDispatch_empty hr hn).symm.trans ht)
    exact ⟨_, execDispatch_empty (s := s.withHook h) hr hn, sameButDiag_withHook h s⟩
  · rw [execDispatch_frame hr hn] at ht
    rw [execDispatch_frame (s := s.withHook h) hr hn]
    exact validate_withHook h ht

/-- The hook changes no event but by the DIAG outputs of DISPATCH. -/
theorem exec_event_withHook (h : Bool) {e : Event} {s t : State} (he : e ≠ .reset) (ht : exec e.instr s = .next t) :
    ∃ u, exec e.instr (s.withHook h) = .next u ∧ SameButDiag h t u := by
  cases e with
  | rxByte => exact ⟨_, execRxByte_withHook h ht, sameButDiag_withHook h t⟩
  | txDone => exact ⟨_, execTxDone_withHook h ht, sameButDiag_withHook h t⟩
  | tick => exact ⟨_, execTick_withHook h ht, sameButDiag_withHook h t⟩
  | dispatch => exact execDispatch_withHook h ht
  | emit => exact ⟨_, execEmit_withHook h ht, sameButDiag_withHook h t⟩
  | hostRead sp a =>
    obtain ⟨ha, rfl⟩ := execHostRead_next ht
    exact ⟨_, if_pos ((capacity_withHook h s sp).symm ▸ ha), sameButDiag_withHook h _⟩
  | hostWrite a v =>
    obtain ⟨ha, rfl⟩ := execHostWrite_next ht
    exact ⟨_, if_pos ((capacity_withHook h s v.space).symm ▸ ha), sameButDiag_withHook h _⟩
  | reset => exact absurd rfl he

/-- Settles O52: DIAG is the one thing in the outputs that the hook decides. -/
theorem diagnosticHookHasNoEffect : Obligations.DiagnosticHookHasNoEffect := by
  unfold Obligations.DiagnosticHookHasNoEffect
  intro e s t h he ht
  obtain ⟨u, hu, os, rfl, hos⟩ := exec_event_withHook h he ht
  exact ⟨_, hu, rfl, hos⟩

end Sys2Proof.Machine

/-! PROOFS. The function codes (spec/44_function_handlers.md): what each handler answers on operands in range and what a write
leaves, the order in which reads and writes refuse, and the coils of a write read back. -/

namespace Sys2Proof.Machine

/-! ### Answers in the claims' terms (R179, R91) -/

section answers
variable {i : Instr} {s : State} {fc : Byte} {h : Store × Reply} {m : Store}

/-- A handler that succeeds answers with its payload between the function code and the CRC (R179). -/
theorem answersWith_success {payload : List Byte} (hs : s.dispPhase = .ready) (e : exec i s = answer fc h s)
    (hh : h = (m, .success payload)) : AnswersWith i s m (sealed (s.cfg.localAddr :: fc :: payload)) := by
  subst hh
  exact answersWith_of_answer hs e

/-- A handler that succeeds with the echo of two fields answers with the A-ECHO frame (R91). -/
theorem answersWith_echo {a v : Word} (hs : s.dispPhase = .ready) (e : exec i s = answer fc h s)
    (hh : h = (m, .success (echoFields a v))) : AnswersWith i s m (echoFrame s fc a v) :=
  answersWith_success hs e hh

/-- The state an answer leaves. -/
theorem AnswersWith.next_eq {o : List Byte} {t : State} (h : AnswersWith i s m o) (ht : exec i s = .next t) :
    t = holdFrame o { s with store := m } :=
  Host.Outcome.next.inj (ht.symm.trans h)

end answers

/-! ### The four reads (R191 to R196) -/

/-- A read whose body is `ReadBits` on `cells` answers with the points of `cells` (R191). -/
theorem answersWith_points {i : Instr} {s : State} {fc : Byte} {cells : Cells Bool} {cap : Nat} {start qty : Word}
    (hs : s.dispPhase = .ready) (e : exec i s = answer fc (s.store, readBits cells cap s.cfg.txCap start qty) s)
    (h1 : 1 ≤ qty.toNat) (h2 : qty.toNat ≤ 2000) (h3 : start.toNat + qty.toNat ≤ cap)
    (h4 : 5 + (qty.toNat + 7) / 8 ≤ s.cfg.txCap) :
    ∃ data : List Byte, data.length = (qty.toNat + 7) / 8 ∧
      (∀ k < 8 * data.length, (data.getD (k / 8) 0).getLsbD (k % 8) =
        (decide (k < qty.toNat) && cellRead false cells (start.toNat + k))) ∧
      AnswersWith i s s.store (sealed (s.cfg.localAddr :: fc :: BitVec.ofNat 8 data.length :: data)) := by
  obtain ⟨hlen, hbits⟩ := packBits_readRun cells start.toNat qty.toNat
  refine ⟨_, hlen, hbits, answersWith_success hs e ?_⟩
  rw [readBits_of_inRange cells h1 h2 h3 h4, hlen, ceil8]

/-- A read whose body is `ReadRegs` on `cells` answers with the words of `cells` (R192). -/
theorem answersWith_words {i : Instr} {s : State} {fc : Byte} {cells : Cells Word} {cap : Nat} {start qty : Word}
    (hs : s.dispPhase = .ready) (e : exec i s = answer fc (s.store, readRegs cells cap s.cfg.txCap start qty) s)
    (h1 : 1 ≤ qty.toNat) (h2 : qty.toNat ≤ 125) (h3 : start.toNat + qty.toNat ≤ cap)
    (h4 : 5 + 2 * qty.toNat ≤ s.cfg.txCap) :
    ∃ data : List Byte, data.length = 2 * qty.toNat ∧
      (∀ k < qty.toNat, data.getD (2 * k) 0 = (cellRead 0 cells (start.toNat + k) >>> 8).setWidth 8 ∧
        data.getD (2 * k + 1) 0 = (cellRead 0 cells (start.toNat + k)).setWidth 8) ∧
      AnswersWith i s s.store (sealed (s.cfg.localAddr :: fc :: BitVec.ofNat 8 (2 * qty.toNat) :: data)) := by
  obtain ⟨hlen, hwords⟩ := regBytes_readRun cells start.toNat qty.toNat
  refine ⟨_, hlen, hwords, answersWith_success hs e ?_⟩
  rw [readRegs_of_inRange cells h1 h2 h3 h4]

/-- Settles O18: `ReadBits` on the coils. -/
theorem readCoilsAnswersThePoints : Obligations.ReadCoilsAnswersThePoints := by
  unfold Obligations.ReadCoilsAnswersThePoints
  intro s start qty hs h1 h2 h3 h4
  exact answersWith_points hs rfl h1 h2 h3 h4

/-- Settles O19: `ReadBits` on the discrete inputs. -/
theorem readDiscreteInputsAnswersThePoints : Obligations.ReadDiscreteInputsAnswersThePoints := by
  unfold Obligations.ReadDiscreteInputsAnswersThePoints
  intro s start qty hs h1 h2 h3 h4
  exact answersWith_points hs rfl h1 h2 h3 h4

/-- Settles O20: `ReadRegs` on the holding registers. -/
theorem readHoldingRegistersAnswersTheWords : Obligations.ReadHoldingRegistersAnswersTheWords := by
  unfold Obligations.ReadHoldingRegistersAnswersTheWords
  intro s start qty hs h1 h2 h3 h4
  exact answersWith_words hs rfl h1 h2 h3 h4

/-- Settles O21: `ReadRegs` on the input registers. -/
theorem readInputRegistersAnswersTheWords : Obligations.ReadInputRegistersAnswersTheWords := by
  unfold Obligations.ReadInputRegistersAnswersTheWords
  intro s start qty hs h1 h2 h3 h4
  exact answersWith_words hs rfl h1 h2 h3 h4

/-! ### The order of refusals (R190) -/

/-- R190's order of checks on a range of elements: the start, the quantity, the end of the range, and what is wrong with
the request after that; `refuse code` says that `code` is the refusal. -/
def RefusesInOrder (cap max start qty : Nat) (wrong : Prop) (refuse : ExceptionCode → Prop) : Prop :=
  (cap ≤ start → refuse .illegalDataAddress) ∧
  (start < cap → qty = 0 ∨ max < qty → refuse .illegalDataValue) ∧
  (start < cap → 1 ≤ qty → qty ≤ max → cap < start + qty → refuse .illegalDataAddress) ∧
  (start < cap → 1 ≤ qty → qty ≤ max → start + qty ≤ cap → wrong → refuse .illegalDataValue)

theorem RefusesInOrder.imp {cap max start qty : Nat} {wrong : Prop} {refuse refuse' : ExceptionCode → Prop}
    (h : RefusesInOrder cap max start qty wrong refuse) (himp : ∀ code, refuse code → refuse' code) :
    RefusesInOrder cap max start qty wrong refuse' := by
  obtain ⟨hstart, hqty, hend, hwrong⟩ := h
  exact ⟨fun a => himp _ (hstart a), fun a b => himp _ (hqty a b), fun a b c d => himp _ (hend a b c d),
    fun a b c d e => himp _ (hwrong a b c d e)⟩

/-- A handler that leaves the store and refuses in order is a request that answers its refusals in order. -/
theorem RefusesInOrder.answersWith {cap max start qty : Nat} {wrong : Prop} {i : Instr} {s : State} {fc : Byte}
    {h : Store × Reply} (hr : RefusesInOrder cap max start qty wrong fun code => h = (s.store, .exception code))
    (hs : s.dispPhase = .ready) (e : exec i s = answer fc h s) :
    RefusesInOrder cap max start qty wrong fun code => AnswersWith i s s.store (excFrame s fc code.byte) :=
  hr.imp fun _ => answersWith_exception hs e

theorem readBits_refusesInOrder (m : Store) (cells : Cells Bool) (cap txCap : Nat) (start qty : Word) :
    RefusesInOrder cap 2000 start.toNat qty.toNat (txCap < 5 + (qty.toNat + 7) / 8)
      fun code => (m, readBits cells cap txCap start qty) = (m, .exception code) :=
  RefusesInOrder.imp (refuse := fun code => readBits cells cap txCap start qty = .exception code)
    (readBits_refuses cells cap txCap start qty) fun _ => congrArg (m, ·)

theorem readRegs_refusesInOrder (m : Store) (cells : Cells Word) (cap txCap : Nat) (start qty : Word) :
    RefusesInOrder cap 125 start.toNat qty.toNat (txCap < 5 + 2 * qty.toNat)
      fun code => (m, readRegs cells cap txCap start qty) = (m, .exception code) :=
  RefusesInOrder.imp (refuse := fun code => readRegs cells cap txCap start qty = .exception code)
    (readRegs_refuses cells cap txCap start qty) fun _ => congrArg (m, ·)

/-- Settles O22: the refusals of `ReadBits` and `ReadRegs`, each the A-EXC frame. -/
theorem readsRefuseInOrder : Obligations.ReadsRefuseInOrder := by
  unfold Obligations.ReadsRefuseInOrder
  intro s start qty i fc cap max bc hs hread
  simp only [List.mem_cons, Prod.mk.injEq, List.not_mem_nil, or_false] at hread
  rcases hread with ⟨rfl, rfl, rfl, rfl, rfl⟩ | ⟨rfl, rfl, rfl, rfl, rfl⟩ | ⟨rfl, rfl, rfl, rfl, rfl⟩ | ⟨rfl, rfl, rfl, rfl, rfl⟩
  · exact (readBits_refusesInOrder s.store s.store.coil s.cfg.nCoils s.cfg.txCap start qty).answersWith hs rfl
  · exact (readBits_refusesInOrder s.store s.store.di s.cfg.nDi s.cfg.txCap start qty).answersWith hs rfl
  · exact (readRegs_refusesInOrder s.store s.store.hr s.cfg.nHr s.cfg.txCap start qty).answersWith hs rfl
  · exact (readRegs_refusesInOrder s.store s.store.ir s.cfg.nIr s.cfg.txCap start qty).answersWith hs rfl

/-- The checks shared by the two multiple writes, before `rest`, are in R190's order. -/
theorem refusesInOrder_of_checks {α : Type} (exc : ExceptionCode → α) (cap max : Nat) (start qty : Word) {wrong : Prop} {rest : α}
    (hrest : wrong → rest = exc .illegalDataValue) :
    RefusesInOrder cap max start.toNat qty.toNat wrong fun code =>
      (if cap ≤ start.toNat then exc .illegalDataAddress
        else if qty.toNat < 1 ∨ max < qty.toNat then exc .illegalDataValue
        else if ¬ rangeOk cap start qty then exc .illegalDataAddress
        else rest) = exc code := by
  simp only [RefusesInOrder, rangeOk_iff]
  refine ⟨fun h => if_pos h, fun h hq => ?_, fun h h1 h2 h3 => ?_, fun h h1 h2 h3 hw => ?_⟩
  · rw [if_neg (by omega), if_pos (by omega)]
  · rw [if_neg (by omega), if_neg (by omega), if_pos (by omega)]
  · rw [if_neg (by omega), if_neg (by omega), if_neg (by omega), hrest hw]

/-- A byte count other than needed, or fewer data bytes than counted, is the same refusal (R199, R200). -/
theorem dataChecks_refuse {α : Type} {bc need len : Nat} (h : bc ≠ need ∨ len < bc) (refusal done : α) :
    (if bc ≠ need then refusal else if len < bc then refusal else done) = refusal := by
  by_cases hn : bc ≠ need
  · exact if_pos hn
  · rw [if_neg hn, if_pos (h.resolve_left hn)]

theorem writeMultipleCoils_refusesInOrder (c : Config) (m : Store) (start qty : Word) (bc : Byte) (data : List Byte) :
    RefusesInOrder c.nCoils 1968 start.toNat qty.toNat (bc.toNat ≠ (qty.toNat + 7) / 8 ∨ data.length < bc.toNat)
      fun code => writeMultipleCoils c m start qty bc data = (m, .exception code) :=
  refusesInOrder_of_checks (fun code => (m, Reply.exception code)) _ _ _ _ fun h => dataChecks_refuse h _ _

theorem writeMultipleRegisters_refusesInOrder (c : Config) (m : Store) (start qty : Word) (bc : Byte) (data : List Byte) :
    RefusesInOrder c.nHr 123 start.toNat qty.toNat (bc.toNat ≠ 2 * qty.toNat ∨ data.length < bc.toNat)
      fun code => writeMultipleRegisters c m start qty bc data = (m, .exception code) :=
  refusesInOrder_of_checks (fun code => (m, Reply.exception code)) _ _ _ _ fun h => dataChecks_refuse h _ _

theorem writeSingleCoil_of_badAddress {c : Config} {a : Word} (h : c.nCoils ≤ a.toNat) (m : Store) (v : Word) :
    writeSingleCoil c m a v = (m, .exception .illegalDataAddress) :=
  if_pos h

theorem writeSingleCoil_of_badValue {c : Config} {a v : Word} (h : a.toNat < c.nCoils) (hon : v ≠ 0xFF00) (hoff : v ≠ 0x0000)
    (m : Store) : writeSingleCoil c m a v = (m, .exception .illegalDataValue) := by
  rw [writeSingleCoil, if_neg (Nat.not_le_of_lt h), if_pos ⟨hon, hoff⟩]

theorem writeSingleRegister_of_badAddress {c : Config} {a : Word} (h : c.nHr ≤ a.toNat) (m : Store) (v : Word) :
    writeSingleRegister c m a v = (m, .exception .illegalDataAddress) :=
  if_pos h

/-- Settles O27: the refusals of the four write handlers, each the A-EXC frame. -/
theorem writesRefuseInOrder : Obligations.WritesRefuseInOrder := by
  unfold Obligations.WritesRefuseInOrder
  intro s hs
  refine ⟨fun a v => ⟨fun ha => ?_, fun ha hon hoff => ?_, fun ha => ?_⟩, ?_⟩
  · exact answersWith_exception hs rfl (writeSingleCoil_of_badAddress ha s.store v)
  · exact answersWith_exception hs rfl (writeSingleCoil_of_badValue ha hon hoff s.store)
  · exact answersWith_exception hs rfl (writeSingleRegister_of_badAddress ha s.store v)
  · intro start qty bc data i fc cap max need hwrite
    simp only [List.mem_cons, Prod.mk.injEq, List.not_mem_nil, or_false] at hwrite
    rcases hwrite with ⟨rfl, rfl, rfl, rfl, rfl⟩ | ⟨rfl, rfl, rfl, rfl, rfl⟩
    · exact (writeMultipleCoils_refusesInOrder s.cfg s.store start qty bc data).answersWith hs rfl
    · exact (writeMultipleRegisters_refusesInOrder s.cfg s.store start qty bc data).answersWith hs rfl

/-- Settles O28: no format has the code, and the handler of ILLFN leaves the store. -/
theorem illegalFunctionAnswersException : Obligations.IllegalFunctionAnswersException := by
  unfold Obligations.IllegalFunctionAnswersException
  intro s fc
  exact ⟨decode_of_not_known, fun hs => answersWith_exception (code := .illegalFunction) hs rfl rfl⟩

/-! ### The four writes (R197 to R200) -/

/-- `WriteSingleCoil` on a coil inside the space and one of the two legal values (R96, R197). -/
theorem writeSingleCoil_of_legal {c : Config} {a v : Word} (ha : a.toNat < c.nCoils) (hv : v = 0xFF00 ∨ v = 0x0000) (m : Store) :
    writeSingleCoil c m a v = (memWrite m a.toNat (.coil (v = 0xFF00)), .success (echoFields a v)) := by
  have hlegal : ¬ (v ≠ coilOn ∧ v ≠ coilOff) := by
    rintro ⟨hon, hoff⟩
    exact hv.elim hon hoff
  rw [writeSingleCoil, if_neg (Nat.not_le_of_lt ha), if_neg hlegal, coilOn]

/-- `WriteSingleRegister` on a register inside the space (R198). -/
theorem writeSingleRegister_of_inRange {c : Config} {a : Word} (ha : a.toNat < c.nHr) (m : Store) (v : Word) :
    writeSingleRegister c m a v = (memWrite m a.toNat (.hr v), .success (echoFields a v)) :=
  if_neg (Nat.not_le_of_lt ha)

/-- What a run of register writes leaves (R200). -/
theorem memRead_registerRun {c : Config} {m : Store} (hm : Memory.wf c m) {start qty : Nat} (h : start + qty ≤ c.nHr)
    (data : List Byte) :
    (∀ k < qty, memRead (memWriteRun m start ((dataWords data qty).map .hr)) .hr (start + k) = .hr (dataWord data k)) ∧
    ∀ sp x, sp ≠ .hr ∨ x < start ∨ start + qty ≤ x →
      memRead (memWriteRun m start ((dataWords data qty).map .hr)) sp x = memRead m sp x := by
  have hv : ∀ v ∈ (dataWords data qty).map Item.hr, v.space = .hr := List.forall_mem_map.mpr fun _ _ => rfl
  have hlen : ((dataWords data qty).map Item.hr).length = qty := by simp
  constructor
  · intro k hk
    rw [memRead_memWriteRun_same hm hv (by rw [hlen]; exact h) (by rw [hlen]; exact hk)]
    simp [dataWords]
  · intro sp x hx
    exact memRead_memWriteRun_other m _ hv (by rw [hlen]; exact hx)

/-- Settles O23: one write to the coil, and the laws of a write. -/
theorem writeSingleCoilSetsTheCoil : Obligations.WriteSingleCoilSetsTheCoil := by
  unfold Obligations.WriteSingleCoilSetsTheCoil
  intro s a v hs hm ha hv
  exact ⟨_, answersWith_echo hs rfl (writeSingleCoil_of_legal ha hv s.store), memRead_memWrite_same hm _ (.coil _),
    fun sp x => memRead_memWrite_other s.store (.coil _)⟩

/-- Settles O24: one write to the register, and the laws of a write. -/
theorem writeSingleRegisterSetsTheRegister : Obligations.WriteSingleRegisterSetsTheRegister := by
  unfold Obligations.WriteSingleRegisterSetsTheRegister
  intro s a v hs hm ha
  exact ⟨_, answersWith_echo hs rfl (writeSingleRegister_of_inRange ha s.store v), memRead_memWrite_same hm _ (.hr v),
    fun sp x => memRead_memWrite_other s.store (.hr v)⟩

/-- Settles O25: a run of writes to the coils, of the bits unpacked from the data. -/
theorem writeMultipleCoilsSetsTheCoils : Obligations.WriteMultipleCoilsSetsTheCoils := by
  unfold Obligations.WriteMultipleCoilsSetsTheCoils
  intro s start qty bc data hs hm h1 h2 h3 h4 h5
  exact ⟨_, answersWith_echo hs rfl (writeMultipleCoils_of_inRange h1 h2 h3 h4 h5), memRead_coilRun hm h3 data⟩

/-- Settles O26: a run of writes to the registers, of the words joined from the data. -/
theorem writeMultipleRegistersSetsTheRegisters : Obligations.WriteMultipleRegistersSetsTheRegisters := by
  unfold Obligations.WriteMultipleRegistersSetsTheRegisters
  intro s start qty bc data hs hm h1 h2 h3 h4 h5
  exact ⟨_, answersWith_echo hs rfl (writeMultipleRegisters_of_inRange h1 h2 h3 h4 h5), memRead_registerRun hm h3 data⟩

/-! ### Coils written are read back (R58, V4) -/

theorem sealed_length (o : List Byte) : (sealed o).length = o.length + 2 := withCrc_length o

/-- The bytes of a read's answer: the data follow the address, the code and the byte count. -/
theorem sealed_getD_data (addr fc count : Byte) {data : List Byte} {j : Nat} (hj : j < data.length) :
    (sealed (addr :: fc :: count :: data)).getD (3 + j) 0 = data.getD j 0 := by
  simp [sealed, Nat.add_comm 3 j, List.getElem?_append_left hj]

/-- Settles O31: the write leaves the bits in the coils (O25), and the read answers with the coils (O18). -/
theorem coilsWrittenAreReadBack : Obligations.CoilsWrittenAreReadBack := by
  unfold Obligations.CoilsWrittenAreReadBack
  intro s t u start qty bc data hs h1 h2 h3 h4 h5 h6 ht hu
  have hready : s.dispPhase = .ready := (answer_next ht).1
  obtain ⟨m, hwrite, hcoils, -⟩ := writeMultipleCoilsSetsTheCoils s start qty bc data hready hs.memory h1 h2 h3 h5 h6
  have hleft := hwrite.next_eq ht
  have hcfg : t.cfg = s.cfg := by rw [hleft]; rfl
  have hstore : t.store = m := by rw [hleft]; rfl
  obtain ⟨points, hlen, hbits, hread⟩ := readCoilsAnswersThePoints { t with dispPhase := .ready, dispOutLen := 0 } start qty
    rfl h1 (by omega) (hcfg ▸ h3) (hcfg ▸ h4)
  obtain rfl := hread.next_eq hu
  rw [holdFrame_heldFrame]
  refine ⟨rfl, by simp only [sealed_length, List.length_cons, hlen]; omega, fun k hk => ?_⟩
  have hcoil : cellRead false m.coil (start.toNat + k) = (data.getD (k / 8) 0).getLsbD (k % 8) :=
    Item.coil.inj (hcoils k hk)
  rw [sealed_getD_data _ _ _ (by omega), hbits k (by omega), hstore, hcoil, decide_eq_true hk, Bool.true_and]

end Sys2Proof.Machine

/-! PROOFS. Exceptions and contexts (spec/60_exceptions.md): a byte and the end-timeout at one instant, in either order (R229),
and what each of the three contexts leaves to the others (R232, R233). -/

namespace Sys2Proof.Machine

/-! ### A byte and the end-timeout tick at one instant (R141, R229, V20) -/

theorem play_cons_next {e : Event} {es : List Event} {s t : State} (h : exec e.instr s = .next t) :
    play (e :: es) s = play es t := by
  simp only [play, h]

/-- A byte that finds nothing fresh accumulated is alone in the accumulator (R141). -/
theorem execRxByte_begins_frame {s : State} (hs : s.Inv) (h : s.midFired = true ∨ s.rxLen = 0) (b : Byte) :
    ∃ t, execRxByte b s = .next t ∧ s.JustReceived [b] t ∧ t.received = [b] := by
  obtain ⟨-, -, -, hcap, -⟩ := (legalConfig_iff s.cfg).mp hs.legal
  obtain ⟨t, ht, hb⟩ := execRxByte_justReceived (gathered_nil hs h) b
  refine ⟨t, ht, hb, ?_⟩
  rw [hb.gathered.received hb.fresh, hb.cfg]
  exact List.take_of_length_le (show 1 ≤ s.cfg.rxCap by omega)

/-- The end-timeout tick, then a byte: the frame is published, and the byte begins the next one. -/
theorem play_endTick_rxByte {s : State} (hs : s.Inv) (hr : s.timRun = true) (hc : s.timCount + 1 = s.cfg.t35Ticks)
    (h0 : s.rxLen ≠ 0) (b : Byte) :
    ∃ t, play [.tick, .rxByte b] s = .next t ∧ t.mailbox = s.received ∧ t.received = [b] ∧ t.timCount = 0 := by
  obtain ⟨-, -, hlt, -⟩ := (legalConfig_iff s.cfg).mp hs.legal
  have htick := execTick_end hr hc hlt
  obtain ⟨t, ht, hb, halone⟩ := execRxByte_begins_frame (inv_execTick hs htick) (.inr (by simp)) b
  refine ⟨t, ?_, ?_, halone, hb.restarted⟩
  · exact (play_cons_next (e := .tick) htick).trans ((play_singleton _ _).trans ht)
  · calc t.mailbox
        = (txEndTimeoutGate (endOfFrame (fireEnd (countTick s)))).mailbox := (congrArg State.mailbox hb.rest :)
      _ = s.received := endTimeout_mailbox (s := countTick s) (hs.rxBufLength ▸ hs.rxFits) h0

/-- A byte, then the tick: the mid-timeout has fired, so the byte discards what was accumulated, and it restarts the timer, so the
tick only counts. -/
theorem play_rxByte_tick {s : State} (hs : s.Inv) (hc : s.timCount + 1 = s.cfg.t35Ticks) (b : Byte) :
    ∃ t, play [.rxByte b, .tick] s = .next t ∧ t.mailbox = s.mailbox ∧ t.received = [b] ∧ t.timCount = 1 := by
  obtain ⟨-, hpos, hlt, -⟩ := (legalConfig_iff s.cfg).mp hs.legal
  have hmid : s.midFired = true := hs.midIffCount.mpr (by omega)
  obtain ⟨t, ht, hb, halone⟩ := execRxByte_begins_frame hs (.inl hmid) b
  have htick : play [.tick] t = .next (afterTicks 1 t) :=
    play_silence (k := 1) hb.running (by rw [hb.restarted, hb.cfg]; omega)
  exact ⟨afterTicks 1 t, (play_cons_next (e := .rxByte b) ht).trans htick, (congrArg State.mailbox hb.rest :), halone,
    congrArg (· + 1) hb.restarted⟩

/-- Settles O40: the two orders, one lemma each. -/
theorem byteAndEndTimeoutInEitherOrder : Obligations.ByteAndEndTimeoutInEitherOrder := by
  unfold Obligations.ByteAndEndTimeoutInEitherOrder
  intro s b hs hr hc h0
  exact ⟨play_endTick_rxByte hs hr hc (Nat.ne_of_gt h0) b, play_rxByte_tick hs hc b⟩

/-! ### The elements each context may write (R232, R233) -/

/-- Interrupt events write the timer, the receive side, the mailbox, the transmitter's cursor and state, and the outputs. -/
theorem exec_interrupt_frame {i : Instr} {s t : State} (hi : i = .txDone ∨ i = .tick ∨ ∃ b, i = .rxByte b)
    (h : exec i s = .next t) : t = { s with
      timCount := t.timCount, timRun := t.timRun, midFired := t.midFired, endFired := t.endFired, faState := t.faState,
      rxBuf := t.rxBuf, rxLen := t.rxLen, mbBuf := t.mbBuf, mbLen := t.mbLen, txCur := t.txCur, txState := t.txState,
      txInflight := t.txInflight, outputs := t.outputs } := by
  obtain rfl | rfl | ⟨b, rfl⟩ := hi
  · rw [execTxDone_frame h]
  · rw [execTick_frame h]
  · rw [execRxByte_frame h]

/-- Foreground events write the mailbox's count, the transmitter, the dispatcher's elements, the store and the outputs. -/
theorem exec_foreground_frame {i : Instr} {s t : State} (hi : i = .dispatch ∨ i = .emit) (h : exec i s = .next t) :
    t = { s with
      mbLen := t.mbLen, txBuf := t.txBuf, txLen := t.txLen, txCur := t.txCur, txState := t.txState,
      txInflight := t.txInflight, dispPhase := t.dispPhase, dispOut := t.dispOut, dispOutLen := t.dispOutLen,
      store := t.store, outputs := t.outputs } := by
  obtain rfl | rfl := hi
  · rw [(execDispatch_changes h).left]
  · rw [execEmit_frame h]

/-- Host events write the store and the outputs. -/
theorem exec_host_frame {i : Instr} {s t : State} (hi : (∃ sp a, i = .hostRead sp a) ∨ ∃ a v, i = .hostWrite a v)
    (h : exec i s = .next t) : t = { s with store := t.store, outputs := t.outputs } := by
  obtain ⟨sp, a, rfl⟩ | ⟨a, v, rfl⟩ := hi
  · rw [(execHostRead_next h).right]
    rfl
  · rw [(execHostWrite_next h).right]

/-- Settles O51: each context's frame leaves out the others' elements; that DISPATCH and EMIT leave the input spaces is O50. -/
theorem eachContextWritesOnlyItsOwn : Obligations.EachContextWritesOnlyItsOwn := by
  unfold Obligations.EachContextWritesOnlyItsOwn
  intro i s t h
  refine ⟨fun hi => ?_, fun hi => ?_, fun hi => exec_host_frame hi h⟩
  · rw [exec_interrupt_frame hi h]
    and_intros <;> rfl
  · have hspaces : inputSpaces t.store = inputSpaces s.store :=
      exec_keeps_inputSpaces h (by rcases hi with rfl | rfl <;> nofun) (by rcases hi with rfl | rfl <;> nofun)
    obtain ⟨hdi, hir⟩ := Prod.mk.inj hspaces
    rw [exec_foreground_frame hi h]
    exact ⟨rfl, rfl, rfl, rfl, rfl, rfl, rfl, rfl, hdi, hir, rfl⟩

end Sys2Proof.Machine

/-! PROOFS. Reset and hazards (spec/70_reset_and_hazards.md): what RESET sets (R250), the events before the first RESET (R254), and
what a quiescent state still does (R264). -/

namespace Sys2Proof.Machine

/-! ### RESET and the events before it (R250 to R254) -/

theorem exec_reset_of_legal {s : State} (hc : legalConfig s.cfgPins) :
    exec .reset s = .next { State.afterReset s.cfgPins with input := s.input, outputs := s.outputs } :=
  if_pos hc

/-- Settles O45: a row of R250 each, read off the fields of `State.afterReset`, which meets the invariants. -/
theorem resetSetsEveryElement : Obligations.ResetSetsEveryElement := by
  unfold Obligations.ResetSetsEveryElement
  intro s hc
  refine ⟨_, exec_reset_of_legal hc, ?_⟩
  exact ⟨rfl, rfl, rfl, rfl, rfl, rfl, rfl, rfl, rfl, rfl, rfl, rfl, rfl, rfl, rfl, rfl, rfl, rfl,
    inv_records (inv_afterReset hc) _ _⟩

theorem takeEvent_of_not_reset_yet {e : Event} {s : State} (hr : s.hasReset = false) (he : e ≠ .reset) (rest : List Event) :
    takeEvent e rest s = .fault .eventBeforeReset := by
  have hn : ¬ e.admitted s := not_or.mpr ⟨he, fun h => ne_true_of_eq_false hr h.left⟩
  calc takeEvent e rest s
      = if s.hasReset then .refused .illegalConfiguration else .fault .eventBeforeReset := if_neg hn
    _ = .fault .eventBeforeReset := if_neg (ne_true_of_eq_false hr)

theorem answer_keeps_hasReset {fc : Byte} {h : Store × Reply} {s t : State} (ht : answer fc h s = .next t) :
    t.hasReset = s.hasReset := by
  rw [answer_frame ht]

/-- A request's answer leaves `hasReset`, and no context but RESET writes it (R232, R233). -/
theorem exec_keeps_hasReset {i : Instr} {s t : State} (hi : i ≠ .reset) (h : exec i s = .next t) :
    t.hasReset = s.hasReset := by
  cases i with
  | rdcoil | rddi | rdhr | rdir | wrcoil | wrhr | wrcoils | wrhrs => exact answer_keeps_hasReset h
  | illfn => exact answer_keeps_hasReset (h := (s.store, .exception .illegalFunction)) h
  | rxByte | txDone | tick => rw [exec_interrupt_frame (by simp) h]
  | dispatch | emit => rw [exec_foreground_frame (by simp) h]
  | hostRead | hostWrite => rw [exec_host_frame (by simp) h]
  | reset => exact absurd rfl hi

theorem exec_reset_hasReset {s t : State} (h : exec .reset s = .next t) : t.hasReset = true := by
  rw [(execReset_next h).right]
  rfl

/-- Settles O54: before the first RESET only RESET is admitted, and of the instructions that answer only RESET writes `hasReset`. -/
theorem onlyResetStepsBeforeTheFirstReset : Obligations.OnlyResetStepsBeforeTheFirstReset := by
  unfold Obligations.OnlyResetStepsBeforeTheFirstReset
  refine ⟨fun s e rest hr hin => ?_, fun i s t h => ?_⟩
  · rw [step_of_event hin]
    refine ⟨fun he => takeEvent_of_not_reset_yet hr he rest, fun he hc => ?_⟩
    rw [takeEvent_of_admitted (.inl he), he]
    exact exec_reset_of_legal (s := { s with input := rest }) hc
  · by_cases hi : i = .reset
    · subst hi
      exact iff_of_true (exec_reset_hasReset h) (.inr rfl)
    · rw [exec_keeps_hasReset hi h, or_iff_left hi]

/-! ### Quiescence (R264) -/

/-- A frame boundary with nothing accumulated changes nothing (R143). -/
theorem endOfFrame_of_empty {s : State} (h0 : s.rxLen = 0) (hf : s.faState = .idle) : endOfFrame s = s := by
  rw [endOfFrame_eq, if_pos h0, if_pos h0, ← h0, ← hf]

/-- The deferred transmit finds nothing pending in an idle transmitter (R150). -/
theorem txEndTimeoutGate_of_idle {s : State} (h : s.txState = .txIdle) : txEndTimeoutGate s = s :=
  if_neg (by simp [h])

/-- In a running timer's tick with nothing accumulated and nothing to send, only the timer moves (R123 to R125). -/
theorem execTick_of_nothing_pending {s : State} (hs : s.Inv) (hr : s.timRun = true) (h0 : s.rxLen = 0) (hi : s.txState = .txIdle) :
    execTick s = .next (midTimeout (countTick s)) ∨ execTick s = .next (fireEnd (countTick s)) := by
  obtain ⟨-, -, hlt, -⟩ := (legalConfig_iff s.cfg).mp hs.legal
  by_cases hc : s.timCount + 1 = s.cfg.t35Ticks
  · have hidle : s.faState = .idle := by
      cases hf : s.faState with
      | idle => rfl
      | accumulating => exact absurd h0 (Nat.ne_of_gt (hs.accumulating.mp hf))
    right
    calc execTick s
        = .next (txEndTimeoutGate (endOfFrame (fireEnd (countTick s)))) := execTick_end hr hc hlt
      _ = .next (txEndTimeoutGate (fireEnd (countTick s))) := by
        rw [endOfFrame_of_empty (s := fireEnd (countTick s)) h0 hidle]
      _ = .next (fireEnd (countTick s)) := by rw [txEndTimeoutGate_of_idle (s := fireEnd (countTick s)) hi]
  · exact .inl (execTick_below hr hc)

/-- Settles O53: DISPATCH finds the mailbox empty, EMIT and TX_DONE are disabled, and a tick finds the timer halted or nothing
pending. -/
theorem quiescentStateOnlyTicks : Obligations.QuiescentStateOnlyTicks := by
  unfold Obligations.QuiescentStateOnlyTicks
  intro s hs hq
  refine ⟨execDispatch_empty hq.dispatcher hq.mailbox, fun t ht => ?_, fun t ht => ?_, ?_⟩
  · nomatch (execEmit_of_ready hq.dispatcher).symm.trans ht
  · nomatch (execTxDone_of_idle hq.inflight).symm.trans ht
  · cases hr : s.timRun with
    | false => exact ⟨_, _, _, _, execTick_halted hr⟩
    | true =>
      obtain ⟨h0, -⟩ := hq.line.resolve_left (ne_false_of_eq_true hr)
      obtain htick | htick := execTick_of_nothing_pending hs hr h0 hq.transmitter
      · rw [midTimeout_countTick_eq] at htick
        exact ⟨_, _, _, _, htick⟩
      · exact ⟨_, _, _, _, htick⟩

end Sys2Proof.Machine

/-! PROOFS. Requests written out byte by byte (R84 to R87, R94). -/

namespace Sys2Proof.Machine

/-- Settles O5: the first five PDUs are the encodings of well-formed requests, so O1 gives what they decode to; the code of the
sixth is outside the map, so its other bytes are ignored. -/
theorem writtenOutRequestsDecode : Obligations.WrittenOutRequestsDecode := by
  unfold Obligations.WrittenOutRequestsDecode
  refine ⟨?rdhr, ?wrcoil, ?wrhr, ?wrcoils, ?wrhrs, ?illfn⟩
  case illfn => exact decode_of_not_known (by decide) [0x0E, 0x01, 0x00]
  all_goals exact decodeOfEncodeIsTheRequest _ _ (by decide) (by decide)

end Sys2Proof.Machine
